-- ==== Sys2Proof/Word.lean ====
section
/-! DEFINITION. Word types of the machine: every value is an unsigned integer of a stated width
(00_scope.md R5). -/

namespace Sys2Proof

/-- A memory byte or a general register: 8 bits (10_state.md R30, 20_memory.md R81). -/
abbrev Byte := BitVec 8

/-- An instruction word, I, PC and a stack entry: 16 bits (10_state.md R34, R36, R39). -/
abbrev Word := BitVec 16

/-- The index of a general register, the x or y field of an instruction (30_encoding.md R112). -/
abbrev Reg := BitVec 4

/-- The 12-bit address operand `nnn` (30_encoding.md R112). -/
abbrev Addr12 := BitVec 12

/-- One row of the framebuffer: 64 one-bit pixels, bit c is the pixel of column c
(10_state.md R45). -/
abbrev PixelRow := BitVec 64

/-- VF, another name of V[15] (10_state.md R32). -/
def VF : Reg := 15#4

/-- `zext_16` of an 8-bit value (00_scope.md R5). -/
def zext16 (b : Byte) : Word := b.setWidth 16

/-- `zext_16` of the 12-bit operand (30_encoding.md R116). -/
def zextAddr (a : Addr12) : Word := a.setWidth 16

end Sys2Proof
end

