-- ==== Sys2Proof/Decode.lean ====
section
/-! DEFINITION. Decoding and encoding (30_encoding.md R110 to R122): the fields of a word, the
two-level decoder of R115, the encoder written from the formats of R111 and the rows of R118, and
the opcode table itself with its mask and match columns. -/

namespace Sys2Proof

/-- Why a byte sequence or a word is no instruction. -/
inductive DecodeReject where
  /-- The word matches no row of the opcode table: an unknown opcode (30_encoding.md R120). -/
  | unknownOpcode (op : Word)
  /-- Fewer than the two bytes an instruction has (30_encoding.md R110). -/
  | tooShort
deriving DecidableEq, Repr

/-! ## Fields (R112) -/

/-- `family = op[15:12]`. -/
def fieldFamily (op : Word) : BitVec 4 := op.extractLsb' 12 4

/-- `nnn = op[11:0]`. -/
def fieldNnn (op : Word) : Addr12 := op.extractLsb' 0 12

/-- `x = op[11:8]`. -/
def fieldX (op : Word) : Reg := op.extractLsb' 8 4

/-- `y = op[7:4]`. -/
def fieldY (op : Word) : Reg := op.extractLsb' 4 4

/-- `n = op[3:0]`. -/
def fieldN (op : Word) : BitVec 4 := op.extractLsb' 0 4

/-- `kk = op[7:0]`. -/
def fieldKk (op : Word) : Byte := op.extractLsb' 0 8

/-! ## The decoder -/

/-- Family 0x0 (control) matches on all 16 bits (R115): 00E0 and 00EE. -/
def decodeControl (op : Word) : Option Instr :=
  match op.toNat with
  | 0x00E0 => some .cls
  | 0x00EE => some .ret
  | _ => none

/-- Family 0x8 (arithmetic) branches on the low nibble (R115, 41_load_alu.md R186). -/
def decodeArith (op : Word) : Option Instr :=
  match (fieldN op).toNat with
  | 0x0 => some (.ldReg (fieldX op) (fieldY op))
  | 0x1 => some (.orReg (fieldX op) (fieldY op))
  | 0x2 => some (.andReg (fieldX op) (fieldY op))
  | 0x3 => some (.xorReg (fieldX op) (fieldY op))
  | 0x4 => some (.addReg (fieldX op) (fieldY op))
  | 0x5 => some (.sub (fieldX op) (fieldY op))
  | 0x6 => some (.shr (fieldX op) (fieldY op))
  | 0x7 => some (.subn (fieldX op) (fieldY op))
  | 0xE => some (.shl (fieldX op) (fieldY op))
  | _ => none

/-- Families 0x5 and 0x9 require the low nibble 0 (R115, R121). -/
def decodeNibbleZero (op : Word) (i : Instr) : Option Instr :=
  match (fieldN op).toNat with
  | 0x0 => some i
  | _ => none

/-- Family 0xE (key) branches on the low byte (R115). -/
def decodeKey (op : Word) : Option Instr :=
  match (fieldKk op).toNat with
  | 0x9E => some (.skp (fieldX op))
  | 0xA1 => some (.sknp (fieldX op))
  | _ => none

/-- Family 0xF (I/O) branches on the low byte (R115). -/
def decodeIo (op : Word) : Option Instr :=
  match (fieldKk op).toNat with
  | 0x07 => some (.ldVxDt (fieldX op))
  | 0x0A => some (.ldVxK (fieldX op))
  | 0x15 => some (.ldDtVx (fieldX op))
  | 0x18 => some (.ldStVx (fieldX op))
  | 0x1E => some (.addI (fieldX op))
  | 0x29 => some (.ldF (fieldX op))
  | 0x33 => some (.ldB (fieldX op))
  | 0x55 => some (.stRegs (fieldX op))
  | 0x65 => some (.ldRegs (fieldX op))
  | _ => none

/-- The top-level branch on the family (R115, R117); `none` is an unknown opcode. -/
def decodeOp (op : Word) : Option Instr :=
  match (fieldFamily op).toNat with
  | 0x0 => decodeControl op
  | 0x1 => some (.jp (fieldNnn op))
  | 0x2 => some (.call (fieldNnn op))
  | 0x3 => some (.seImm (fieldX op) (fieldKk op))
  | 0x4 => some (.sneImm (fieldX op) (fieldKk op))
  | 0x5 => decodeNibbleZero op (.seReg (fieldX op) (fieldY op))
  | 0x6 => some (.ldImm (fieldX op) (fieldKk op))
  | 0x7 => some (.addImm (fieldX op) (fieldKk op))
  | 0x8 => decodeArith op
  | 0x9 => decodeNibbleZero op (.sneReg (fieldX op) (fieldY op))
  | 0xA => some (.ldI (fieldNnn op))
  | 0xB => some (.jpV0 (fieldNnn op))
  | 0xC => some (.rnd (fieldX op) (fieldKk op))
  | 0xD => some (.drw (fieldX op) (fieldY op) (fieldN op).toNat)
  | 0xE => decodeKey op
  | 0xF => decodeIo op
  | _ => none

/-- Decode one instruction word, rejecting an unknown opcode by name (R120). -/
def decode (op : Word) : Except DecodeReject Instr :=
  match decodeOp op with
  | some i => .ok i
  | none => .error (.unknownOpcode op)

/-- The 16-bit word of two bytes, high byte first (20_memory.md R83). -/
def wordOf (hi lo : Byte) : Word := hi ++ lo

/-- Decode the first instruction of a byte sequence; total on any bytes. -/
def decodeBytes : List Byte → Except DecodeReject (Instr × List Byte)
  | hi :: lo :: rest => (decode (wordOf hi lo)).map (fun i => (i, rest))
  | [_] => .error .tooShort
  | [] => .error .tooShort

/-! ## The encoder (R111, R118) -/

/-- Format NNN: a family and the 12-bit operand. -/
def encNnn (family : BitVec 4) (nnn : Addr12) : Word := family ++ nnn

/-- Format XKK: a family, x and the immediate byte. Format XLL has the same places, its
sub-opcode in the low byte. -/
def encXkk (family : BitVec 4) (x : Reg) (kk : Byte) : Word := family ++ x ++ kk

/-- Format XYN: a family, x, y and the low nibble. -/
def encXyn (family : BitVec 4) (x y : Reg) (n : BitVec 4) : Word := family ++ x ++ y ++ n

/-- The word of a well-formed instruction, from the patterns of R118. -/
def encode : Instr → Word
  | .cls => 0x00E0#16
  | .ret => 0x00EE#16
  | .jp nnn => encNnn 0x1#4 nnn
  | .call nnn => encNnn 0x2#4 nnn
  | .seImm x kk => encXkk 0x3#4 x kk
  | .sneImm x kk => encXkk 0x4#4 x kk
  | .seReg x y => encXyn 0x5#4 x y 0x0#4
  | .ldImm x kk => encXkk 0x6#4 x kk
  | .addImm x kk => encXkk 0x7#4 x kk
  | .ldReg x y => encXyn 0x8#4 x y 0x0#4
  | .orReg x y => encXyn 0x8#4 x y 0x1#4
  | .andReg x y => encXyn 0x8#4 x y 0x2#4
  | .xorReg x y => encXyn 0x8#4 x y 0x3#4
  | .addReg x y => encXyn 0x8#4 x y 0x4#4
  | .sub x y => encXyn 0x8#4 x y 0x5#4
  | .shr x y => encXyn 0x8#4 x y 0x6#4
  | .subn x y => encXyn 0x8#4 x y 0x7#4
  | .shl x y => encXyn 0x8#4 x y 0xE#4
  | .sneReg x y => encXyn 0x9#4 x y 0x0#4
  | .ldI nnn => encNnn 0xA#4 nnn
  | .jpV0 nnn => encNnn 0xB#4 nnn
  | .rnd x kk => encXkk 0xC#4 x kk
  | .drw x y n => encXyn 0xD#4 x y (BitVec.ofNat 4 n)
  | .skp x => encXkk 0xE#4 x 0x9E#8
  | .sknp x => encXkk 0xE#4 x 0xA1#8
  | .ldVxDt x => encXkk 0xF#4 x 0x07#8
  | .ldVxK x => encXkk 0xF#4 x 0x0A#8
  | .ldDtVx x => encXkk 0xF#4 x 0x15#8
  | .ldStVx x => encXkk 0xF#4 x 0x18#8
  | .addI x => encXkk 0xF#4 x 0x1E#8
  | .ldF x => encXkk 0xF#4 x 0x29#8
  | .ldB x => encXkk 0xF#4 x 0x33#8
  | .stRegs x => encXkk 0xF#4 x 0x55#8
  | .ldRegs x => encXkk 0xF#4 x 0x65#8

/-- The high byte of a word, stored at the lower address (20_memory.md R83). -/
def hiByte (op : Word) : Byte := op.extractLsb' 8 8

/-- The low byte of a word. -/
def loByte (op : Word) : Byte := op.extractLsb' 0 8

/-- The two bytes of an instruction as they stand in memory, high byte first. -/
def encodeBytes (i : Instr) : List Byte := [hiByte (encode i), loByte (encode i)]

/-! ## The opcode table (R118) -/

/-- One row of R118: the pattern and mnemonic as written there, and the two 16-bit columns. A word
`op` is the row's instruction when `op AND mask = pattern`. -/
structure OpcodeRow where
  id : String
  mnemonic : String
  pattern : Word
  mask : Word
deriving DecidableEq, Repr

/-- The word belongs to the row: `(op & mask) = match` (R113 step 6). -/
def OpcodeRow.accepts (r : OpcodeRow) (op : Word) : Bool := (op &&& r.mask) == r.pattern

/-- The 34 rows of R118, in its order. -/
def opcodeTable : List OpcodeRow :=
  [⟨"00E0", "CLS", 0x00E0, 0xFFFF⟩, ⟨"00EE", "RET", 0x00EE, 0xFFFF⟩,
   ⟨"1nnn", "JP", 0x1000, 0xF000⟩, ⟨"2nnn", "CALL", 0x2000, 0xF000⟩,
   ⟨"3xkk", "SE", 0x3000, 0xF000⟩, ⟨"4xkk", "SNE", 0x4000, 0xF000⟩,
   ⟨"5xy0", "SE", 0x5000, 0xF00F⟩, ⟨"6xkk", "LD", 0x6000, 0xF000⟩,
   ⟨"7xkk", "ADD", 0x7000, 0xF000⟩] ++
  [⟨"8xy0", "LD", 0x8000, 0xF00F⟩, ⟨"8xy1", "OR", 0x8001, 0xF00F⟩,
   ⟨"8xy2", "AND", 0x8002, 0xF00F⟩, ⟨"8xy3", "XOR", 0x8003, 0xF00F⟩,
   ⟨"8xy4", "ADD", 0x8004, 0xF00F⟩, ⟨"8xy5", "SUB", 0x8005, 0xF00F⟩,
   ⟨"8xy6", "SHR", 0x8006, 0xF00F⟩, ⟨"8xy7", "SUBN", 0x8007, 0xF00F⟩,
   ⟨"8xyE", "SHL", 0x800E, 0xF00F⟩, ⟨"9xy0", "SNE", 0x9000, 0xF00F⟩] ++
  [⟨"Annn", "LD", 0xA000, 0xF000⟩, ⟨"Bnnn", "JP", 0xB000, 0xF000⟩,
   ⟨"Cxkk", "RND", 0xC000, 0xF000⟩, ⟨"Dxyn", "DRW", 0xD000, 0xF000⟩,
   ⟨"Ex9E", "SKP", 0xE09E, 0xF0FF⟩, ⟨"ExA1", "SKNP", 0xE0A1, 0xF0FF⟩,
   ⟨"Fx07", "LD", 0xF007, 0xF0FF⟩, ⟨"Fx0A", "LD", 0xF00A, 0xF0FF⟩,
   ⟨"Fx15", "LD", 0xF015, 0xF0FF⟩, ⟨"Fx18", "LD", 0xF018, 0xF0FF⟩,
   ⟨"Fx1E", "ADD", 0xF01E, 0xF0FF⟩, ⟨"Fx29", "LD", 0xF029, 0xF0FF⟩,
   ⟨"Fx33", "LD", 0xF033, 0xF0FF⟩, ⟨"Fx55", "LD", 0xF055, 0xF0FF⟩,
   ⟨"Fx65", "LD", 0xF065, 0xF0FF⟩]

/-- The place of an instruction's row in `opcodeTable`, counted from 0 (column # of R118 less 1). -/
def rowIndex : Instr → Nat
  | .cls => 0
  | .ret => 1
  | .jp _ => 2
  | .call _ => 3
  | .seImm _ _ => 4
  | .sneImm _ _ => 5
  | .seReg _ _ => 6
  | .ldImm _ _ => 7
  | .addImm _ _ => 8
  | .ldReg _ _ => 9
  | .orReg _ _ => 10
  | .andReg _ _ => 11
  | .xorReg _ _ => 12
  | .addReg _ _ => 13
  | .sub _ _ => 14
  | .shr _ _ => 15
  | .subn _ _ => 16
  | .shl _ _ => 17
  | .sneReg _ _ => 18
  | .ldI _ => 19
  | .jpV0 _ => 20
  | .rnd _ _ => 21
  | .drw _ _ _ => 22
  | .skp _ => 23
  | .sknp _ => 24
  | .ldVxDt _ => 25
  | .ldVxK _ => 26
  | .ldDtVx _ => 27
  | .ldStVx _ => 28
  | .addI _ => 29
  | .ldF _ => 30
  | .ldB _ => 31
  | .stRegs _ => 32
  | .ldRegs _ => 33

/-- The host's entry point: the instruction this decoder reads from the word `w` of `nbits` bits,
bit 0 the least significant bit of the one 16-bit instruction word. The word is laid out high byte
first, as the machine stores it, and given to `decodeBytes`. -/
def decodeTableWord (nbits w : Nat) : Option Instr :=
  let op : Word := BitVec.ofNat 16 (w % 2 ^ nbits)
  match decodeBytes [hiByte op, loByte op] with
  | .ok (i, _) => some i
  | .error _ => none

end Sys2Proof
end

