-- ==== Sys2Proof/Config.lean ====
section
/-! DEFINITION. What is fixed for the machine (00_scope.md R4) and its one free value. -/

namespace Sys2Proof.Config

/-- MEM_SIZE: 4096 bytes, addresses 0x000 to 0xFFF (R4). -/
def memSize : Nat := 4096

/-- ROM_BASE: first byte of the loaded ROM and the reset value of PC (R4). -/
def romBase : Nat := 0x200

/-- ROM_MAX: the most ROM bytes that are loaded, 4096 - 512 (R4, 70_reset_and_hazards.md R311). -/
def romMax : Nat := 3584

/-- GLYPH_STRIDE: bytes per font glyph (R4). -/
def glyphStride : Nat := 5

/-- The default FONT_TABLE of 70_reset_and_hazards.md R313, 16 glyphs of 5 bytes.
PRESUMED (log 6): the spec marks these bytes as general knowledge; FONT_TABLE itself is a parameter
of a run (`Env.font`), and this table is only the value it has in `State.reset`. -/
def defaultFont : Vector Byte 80 := #v[
  0xF0, 0x90, 0x90, 0x90, 0xF0,   0x20, 0x60, 0x20, 0x20, 0x70,
  0xF0, 0x10, 0xF0, 0x80, 0xF0,   0xF0, 0x10, 0xF0, 0x10, 0xF0,
  0x90, 0x90, 0xF0, 0x10, 0x10,   0xF0, 0x80, 0xF0, 0x10, 0xF0,
  0xF0, 0x80, 0xF0, 0x90, 0xF0,   0xF0, 0x10, 0x20, 0x40, 0x40,
  0xF0, 0x90, 0xF0, 0x90, 0xF0,   0xF0, 0x90, 0xF0, 0x10, 0xF0,
  0xF0, 0x90, 0xF0, 0x90, 0x90,   0xE0, 0x90, 0xE0, 0x90, 0xE0,
  0xF0, 0x80, 0x80, 0x80, 0xF0,   0xE0, 0x90, 0x90, 0x90, 0xE0,
  0xF0, 0x80, 0xF0, 0x80, 0xF0,   0xF0, 0x80, 0xF0, 0x80, 0x80]

/-- FREE VALUE (log 2): the random byte of the n-th Cxkk whose Cycle came without a byte written
down in the state. The spec gives no generator, seed, period or distribution (10_state.md R51,
41_load_alu.md R183), so it has no body. -/
opaque freeRand : Nat → Byte

end Sys2Proof.Config
end

