-- ==== Sys2Proof/Machine/State.lean ====
section
/-! DEFINITION. The state of the machine as plain data: everything 10_state.md R30 to R49 names, and
in `Env` the host's side of it; the reasons a step can stop; the state after reset (R55, R310). -/

namespace Sys2Proof.Machine

/-- The four fatal faults of 60_exceptions.md R260. Taking one is a NEXT state (R262, log 4), so
these are values written to the FAULT register, not stops of the model. -/
inductive FaultCode where
  /-- 1: a call with SP = 16. -/
  | stackOverflow
  /-- 2: a return with SP = 0. -/
  | stackUnderflow
  /-- 3: a data access at an address above 0xFFF. -/
  | memRange
  /-- 4: a Cycle that starts with PC above 0xFFE. -/
  | fetchRange
deriving DecidableEq, Repr

/-- The five events that drive the machine (10_state.md R50). -/
inductive Event where
  /-- `Boot(rom)`: reset everything, install the font, load the ROM. -/
  | boot (rom : List Byte)
  /-- `Cycle(rand)`: fetch, decode and execute one instruction; `rand` is the host's random byte. -/
  | cycle (rand : Byte)
  /-- `TimerTick`: decrement DT and ST, emit beep. -/
  | timerTick
  /-- `SetKeys(k)`: KEYS becomes k. -/
  | setKeys (k : BitVec 16)
  /-- `RedrawAck`: REDRAW becomes 0. -/
  | redrawAck
deriving DecidableEq, Repr

/-- The event outputs: produced by one event and not stored by the machine (10_state.md R52). -/
inductive Output where
  /-- `beep`, emitted by every TimerTick (60_exceptions.md R276, R278). -/
  | beep (on : Bool)
  /-- `Unknown(op, addr)`, emitted by a Cycle that fetches an unknown opcode (R266). -/
  | unknown (op addr : Word)
deriving DecidableEq, Repr

/-- The host's side of the machine: fields of the MODEL'S OWN, no architectural state (R54). -/
structure Env where
  /-- The events the host has still to send, the next one first; when there is none the host sends
  a Cycle whose random byte nothing constrains (log 1). -/
  inputs : List Event
  /-- The argument `rand` of the Cycle being performed (R51); `none`: left free (log 2). -/
  rand : Option Byte
  /-- How many random bytes Cxkk has drawn: the argument of the free value (log 2). -/
  draws : Nat
  /-- The event output of the last event (log 3). -/
  out : Option Output
  /-- FONT_TABLE, a parameter of the run (70_reset_and_hazards.md R313, log 6). -/
  font : Vector Byte 80
deriving DecidableEq, Repr

/-- The state of the machine. -/
structure State where
  /-- V[0] to V[15] (R30); V[15] is VF (R32). -/
  v : Vector Byte 16
  /-- The index register I (R34). -/
  i : Word
  /-- The program counter (R36). -/
  pc : Word
  /-- The stack pointer, a 5-bit register that counts the entries in use (R38). -/
  sp : BitVec 5
  /-- STACK[0] to STACK[15] (R39). -/
  stack : Vector Word 16
  /-- MEM (R41): the bytes that differ from what an unlisted address reads as, by rising address. -/
  mem : List Host.Cell
  /-- The delay timer (R42). -/
  dt : Byte
  /-- The sound timer (R43). -/
  st : Byte
  /-- FB (R45): 32 rows from the top, bit c of a row is the pixel of column c. -/
  fb : Vector PixelRow 32
  /-- REDRAW (R47). -/
  redraw : Bool
  /-- KEYS (R48): bit k is key k. -/
  keys : BitVec 16
  /-- HALTED (R49). -/
  halted : Bool
  /-- FAULT (R49): a code of R260. -/
  fault : BitVec 3
  /-- The host's side: the model's own fields. -/
  env : Env
deriving DecidableEq, Repr

/-- Why the MODEL stops. The machine's own fatal faults are not here: they are next states. -/
inductive Fault where
  /-- Raised by CALL and RET in a state whose SP is 17 to 31, a value that 10_state.md R56 says
  never occurs and for which there is no stack entry to push to or pop from (R39, R40). Safe: no
  state that meets the invariant of R57 raises it (log 5). -/
  | stackPointerIllegal
deriving DecidableEq, Repr

/-- Why the model refuses an instruction. -/
inductive Refusal where
  /-- Raised by `exec` for an instruction without a meaning; no arm of this model does. Safe. -/
  | notModelled (mnemonic : String)
deriving DecidableEq, Repr

/-- The machine right after reset: the state of 10_state.md R55 after Boot of the empty ROM
(log 7), with the default font and no event pending. -/
def State.reset : State where
  v := Vector.replicate 16 0
  i := 0
  pc := 0x200
  sp := 0
  stack := Vector.replicate 16 0
  mem := []
  dt := 0
  st := 0
  fb := Vector.replicate 32 0
  redraw := false
  keys := 0
  halted := false
  fault := 0
  env :=
    { inputs := []
      rand := none
      draws := 0
      out := none
      font := Config.defaultFont }

end Sys2Proof.Machine
end

