-- ==== Sys2Proof/Machine/Ops.lean ====
section
/-! DEFINITION. The named operations over memory, registers, the stack and the screen, and fault
entry as one shared operation (00_scope.md R6 to R8). -/

namespace Sys2Proof.Machine

/-- What one event or instruction answers. -/
abbrev Result := Host.Outcome State Fault Refusal

/-! ## Memory (20_memory.md R80 to R92) -/

/-- What an address that is not listed reads as: what Boot of an empty ROM leaves there, the font
at 0x000 to 0x04F and zero elsewhere (10_state.md R55, 20_memory.md R90). -/
def background (font : Vector Byte 80) (a : Nat) : Byte := font[a]?.getD 0

/-- The byte a cell list holds at an address. -/
def Mem.read (font : Vector Byte 80) : List Host.Cell → Nat → Byte
  | [], a => background font a
  | (b, w) :: l, a => if b = a then w else Mem.read font l a

/-- Drop every entry for an address. -/
def Mem.erase (a : Nat) : List Host.Cell → List Host.Cell
  | [] => []
  | (b, w) :: l => if b = a then Mem.erase a l else (b, w) :: Mem.erase a l

/-- Put an entry at its place among rising addresses. -/
def Mem.insert (a : Nat) (w : Byte) : List Host.Cell → List Host.Cell
  | [] => [(a, w)]
  | (b, u) :: l => if a < b then (a, w) :: (b, u) :: l else (b, u) :: Mem.insert a w l

/-- Write one byte, keeping the canonical form: a byte equal to the background is not listed. -/
def Mem.write (font : Vector Byte 80) (a : Nat) (w : Byte) (l : List Host.Cell) :
    List Host.Cell :=
  if w = background font a then Mem.erase a l else Mem.insert a w (Mem.erase a l)

/-- Every listed address is above `lo`, below 4096, rising, and differs from the background. -/
def Mem.wfAbove (font : Vector Byte 80) : Option Nat → List Host.Cell → Bool
  | _, [] => true
  | lo, (a, w) :: l =>
    (match lo with
      | none => true
      | some b => decide (b < a)) &&
    decide (a < Config.memSize) && decide (w ≠ background font a) && Mem.wfAbove font (some a) l

/-- The canonical form of a memory: addresses strictly rising and inside MEM, and no entry equal to
what an unlisted address reads as. -/
def Memory.wf (font : Vector Byte 80) (l : List Host.Cell) : Bool := Mem.wfAbove font none l

/-- The cells of a byte sequence that starts at address `a`, in canonical form. -/
def Mem.cellsFrom (font : Vector Byte 80) : Nat → List Byte → List Host.Cell
  | _, [] => []
  | a, w :: ws =>
    if w = background font a then Mem.cellsFrom font (a + 1) ws
    else (a, w) :: Mem.cellsFrom font (a + 1) ws

/-- `MemRead(addr, 1)` of 00_scope.md R7; `none` is the MEM_RANGE case, an address above 0xFFF. -/
def State.memRead (s : State) (a : Nat) : Option Byte :=
  if a < Config.memSize then some (Mem.read s.env.font s.mem a) else none

/-- `MemWrite(addr, 1, v)` of 00_scope.md R7; `none` is the MEM_RANGE case. -/
def State.memWrite (s : State) (a : Nat) (w : Byte) : Option State :=
  if a < Config.memSize then some { s with mem := Mem.write s.env.font a w s.mem } else none

/-- Read `n` bytes from address `a` on; `none` when any of them is out of range (20_memory.md R86).
No byte is read and no test is made for n = 0. -/
def State.readBytes (s : State) (a : Nat) : Nat → Option (List Byte)
  | 0 => some []
  | n + 1 =>
    match s.memRead a, State.readBytes s (a + 1) n with
    | some b, some bs => some (b :: bs)
    | _, _ => none

/-- Write bytes from address `a` on, all or nothing (20_memory.md R86). -/
def State.writeBytes (s : State) (a : Nat) : List Byte → Option State
  | [] => some s
  | b :: bs =>
    match s.memWrite a b with
    | some t => State.writeBytes t (a + 1) bs
    | none => none

/-- `Fetch16(a)`: two bytes, high byte first (20_memory.md R83); `none` when they are not both
inside MEM (R84). -/
def State.fetch16 (s : State) (a : Nat) : Option Word :=
  match s.memRead a, s.memRead (a + 1) with
  | some hi, some lo => some (hi ++ lo)
  | _, _ => none

/-! ## General registers (10_state.md R30) -/

/-- `V[x]`. -/
def State.readV (s : State) (x : Reg) : Byte := s.v[x.toNat]

/-- `V[x] <- b`. -/
def State.writeV (s : State) (x : Reg) (b : Byte) : State := { s with v := s.v.set x.toNat b }

/-- `V[k] <- b, V[k+1] <- …` for a list of bytes, no further than V[15]. -/
def State.writeRegsFrom (s : State) (k : Nat) : List Byte → State
  | [] => s
  | b :: bs =>
    if k < 16 then State.writeRegsFrom (s.writeV (BitVec.ofNat 4 k) b) (k + 1) bs else s

/-! ## The program counter (30_encoding.md R114) -/

/-- `npc = (PC + 2) mod 65536`. -/
def State.npc (s : State) : Word := s.pc + 2

/-- `pc <- npc`, the ordinary advance. -/
def State.advance (s : State) : State := { s with pc := s.npc }

/-- A skip: `pc <- (npc + 2) mod 65536` when the condition holds, `pc <- npc` otherwise
(40_control_flow.md R159). -/
def State.skipIf (s : State) (c : Bool) : State :=
  { s with pc := if c then s.npc + 2 else s.npc }

/-! ## The call stack (10_state.md R38 to R40) -/

/-- `STACK[SP] <- v` then `SP <- SP + 1`; `none` when there is no entry at SP. -/
def State.push (s : State) (w : Word) : Option State :=
  if h : s.sp.toNat < 16 then
    some { s with stack := s.stack.set s.sp.toNat w, sp := s.sp + 1 }
  else none

/-- `SP <- SP - 1` then the entry at the new SP; `none` when there is no such entry. The popped
entry keeps its value. -/
def State.pop (s : State) : Option (Word × State) :=
  if h : (s.sp - 1).toNat < 16 then
    some (s.stack[(s.sp - 1).toNat], { s with sp := s.sp - 1 })
  else none

/-! ## The framebuffer (10_state.md R45, R46) -/

/-- `FB[r][c]`. -/
def State.pixel (s : State) (r : Fin 32) (c : Fin 64) : Bool := s.fb[r].getLsbD c

/-- `FB[r][c] <- FB[r][c] ^ 1`. -/
def State.togglePixel (s : State) (r : Fin 32) (c : Fin 64) : State :=
  { s with fb := s.fb.set r (s.fb[r] ^^^ (1#64 <<< c.val)) }

/-- One set sprite bit at column c, row r (42_display.md R201): the collision is noted before the
toggle, and REDRAW is set. -/
def State.plot (s : State) (r : Fin 32) (c : Fin 64) : State :=
  let noted := if s.pixel r c then s.writeV VF 1 else s
  { noted.togglePixel r c with redraw := true }

/-- The bits `bit` to 7 of one sprite byte, most significant first (R201, R202): `fuel` bits are
left, so `bit = 8 - fuel`. -/
def State.drawBits (s : State) (vx row : Nat) (b : Byte) : Nat → State
  | 0 => s
  | fuel + 1 =>
    let bit := 8 - (fuel + 1)
    let s' := if b.getLsbD (7 - bit) then s.plot (Fin.ofNat 32 row) (Fin.ofNat 64 (vx + bit)) else s
    State.drawBits s' vx row b fuel

/-- The rows of a sprite, the first at row `row` (R201). -/
def State.drawRows (s : State) (vx row : Nat) : List Byte → State
  | [] => s
  | b :: bs => State.drawRows (s.drawBits vx row b 8) vx (row + 1) bs

/-! ## Fault entry (60_exceptions.md R260 to R265) -/

/-- The FAULT code of R260. -/
def FaultCode.code : FaultCode → BitVec 3
  | .stackOverflow => 1
  | .stackUnderflow => 2
  | .memRange => 3
  | .fetchRange => 4

/-- `raise Fault(code)`: HALTED and FAULT are written and nothing else changes (00_scope.md R8,
60_exceptions.md R262). -/
def State.halt (s : State) (c : FaultCode) : State := { s with halted := true, fault := c.code }

/-- Taking a fatal fault, the one shared operation: a next state (log 4). There is no return from
a fault beside it: R265 gives none, and only Boot clears HALTED and FAULT (R264). -/
def raise (c : FaultCode) (s : State) : Result := .next (s.halt c)

end Sys2Proof.Machine
end

