-- ==== Sys2Proof/Machine/Operands.lean ====
section
/-! DEFINITION. The operand forms of 30_encoding.md R127 beyond plain registers and immediates. -/

namespace Sys2Proof.Machine

/-- The effective address `I + k`, an unbounded number (44_memory_ops.md R243, 20_memory.md R85). -/
def State.effAddr (s : State) (k : Nat) : Nat := s.i.toNat + k

/-- The values of V[0] to V[x] (44_memory_ops.md R241). -/
def State.regsUpTo (s : State) (x : Reg) : List Byte := s.v.toList.take (x.toNat + 1)

/-- The random byte of this Cycle (10_state.md R51): the host's, or the free value (log 2). -/
def State.randByte (s : State) : Byte := s.env.rand.getD (Config.freeRand s.env.draws)

/-- One more random byte has been drawn. -/
def State.drew (s : State) : State := { s with env := { s.env with draws := s.env.draws + 1 } }

/-- Key k of the latch, `KEYS[k]` (10_state.md R48). -/
def State.key (s : State) (k : Nat) : Bool := s.keys.getLsbD k

/-- The key tested by Ex9E and ExA1: `k = V[x][3:0]` (43_keys_timers.md R226). -/
def State.keyOf (s : State) (x : Reg) : Bool := s.key ((s.readV x).extractLsb' 0 4).toNat

/-- The lowest index from `k` on, among `fuel` keys, that is pressed. -/
def lowestFrom (keys : BitVec 16) (k : Nat) : Nat → Option Nat
  | 0 => none
  | fuel + 1 => if keys.getLsbD k then some k else lowestFrom keys (k + 1) fuel

/-- The smallest i in 0..15 with KEYS[i] = 1, if any (43_keys_timers.md R222). -/
def State.lowestKey (s : State) : Option Nat := lowestFrom s.keys 0 16

/-- The address of glyph d, `d * 5`, for any 8-bit d (41_load_alu.md R185). -/
def glyphAddr (d : Byte) : Word := zext16 d * 5

/-- The three decimal digits of a byte, hundreds first (44_memory_ops.md R240). -/
def bcdDigits (b : Byte) : List Byte :=
  [BitVec.ofNat 8 (b.toNat / 100), BitVec.ofNat 8 (b.toNat / 10 % 10), BitVec.ofNat 8 (b.toNat % 10)]

end Sys2Proof.Machine
end

