-- ==== Sys2Proof/Machine/Flags.lean ====
section
/-! DEFINITION. The result and the flag of each VF-writing ALU operation, computed exactly on
natural numbers and narrowed at the end (41_load_alu.md R187), and the shared shape of the five
instructions (R188). Each function answers (result, flag). -/

namespace Sys2Proof.Machine

/-- A flag as the byte VF receives: 0 or 1. -/
def flagByte (c : Bool) : Byte := if c then 1 else 0

/-- 8xy4: the low 8 bits of the sum; carry iff the true sum is above 255 (R176). -/
def aluAdd (a b : Byte) : Byte × Byte :=
  (BitVec.ofNat 8 ((a.toNat + b.toNat) % 256), flagByte (decide (a.toNat + b.toNat > 255)))

/-- `(a - b) mod 256`: `a - b` when a ≥ b, else `a - b + 256` (R187). -/
def subMod (a b : Byte) : Byte :=
  BitVec.ofNat 8 (if b.toNat ≤ a.toNat then a.toNat - b.toNat else a.toNat + 256 - b.toNat)

/-- 8xy5: `(a - b) mod 256`; flag 1 exactly when a > b, strictly (R177, 90_conflicts.md C3). -/
def aluSub (a b : Byte) : Byte × Byte := (subMod a b, flagByte (decide (a.toNat > b.toNat)))

/-- 8xy7: `(b - a) mod 256`; flag 1 exactly when b > a (R180). -/
def aluSubn (a b : Byte) : Byte × Byte := (subMod b a, flagByte (decide (b.toNat > a.toNat)))

/-- 8xy6: `a div 2`; flag is bit 0 (R178). -/
def aluShr (a : Byte) : Byte × Byte := (BitVec.ofNat 8 (a.toNat / 2), flagByte (a.getLsbD 0))

/-- 8xyE: `(a * 2) mod 256`; flag is bit 7 (R181). -/
def aluShl (a : Byte) : Byte × Byte := (BitVec.ofNat 8 (a.toNat * 2 % 256), flagByte (a.getLsbD 7))

/-- The common end of R188 once result and flag are known: `V[15] <- flag`, then
`V[x] <- result`, then `pc <- npc`. With x = 15 the result is what V[15] keeps (10_state.md R33). -/
def State.finishFlagged (s : State) (x : Reg) (resultFlag : Byte × Byte) : State :=
  ((s.writeV VF resultFlag.2).writeV x resultFlag.1).advance

end Sys2Proof.Machine
end

