-- ==== Sys2Proof/Machine/ControlFlow.lean ====
section
/-! DEFINITION. Control-transfer instructions (40_control_flow.md). -/

namespace Sys2Proof.Machine

/-- 00EE RET (R150): the popped entry goes to PC; STACK_UNDERFLOW when SP = 0. -/
def execRet (s : State) : Result :=
  if s.sp = 0 then raise .stackUnderflow s
  else
    match s.pop with
    | some (target, t) => .next { t with pc := target }
    | none => .fault .stackPointerIllegal

/-- 1nnn JP nnn (R151). -/
def execJp (nnn : Addr12) (s : State) : Result := .next { s with pc := zextAddr nnn }

/-- 2nnn CALL nnn (R152): npc is pushed; STACK_OVERFLOW when SP = 16. -/
def execCall (nnn : Addr12) (s : State) : Result :=
  if s.sp = 16 then raise .stackOverflow s
  else
    match s.push s.npc with
    | some t => .next { t with pc := zextAddr nnn }
    | none => .fault .stackPointerIllegal

/-- Bnnn JP V0, nnn (R153): the 16-bit sum, not reduced to 12 bits. -/
def execJpV0 (nnn : Addr12) (s : State) : Result :=
  .next { s with pc := zext16 (s.readV 0) + zextAddr nnn }

/-- 3xkk SE Vx, kk (R154). -/
def execSeImm (x : Reg) (kk : Byte) (s : State) : Result :=
  .next (s.skipIf (decide (s.readV x = kk)))

/-- 4xkk SNE Vx, kk (R155). -/
def execSneImm (x : Reg) (kk : Byte) (s : State) : Result :=
  .next (s.skipIf (decide (s.readV x ≠ kk)))

/-- 5xy0 SE Vx, Vy (R156). -/
def execSeReg (x y : Reg) (s : State) : Result :=
  .next (s.skipIf (decide (s.readV x = s.readV y)))

/-- 9xy0 SNE Vx, Vy (R157). -/
def execSneReg (x y : Reg) (s : State) : Result :=
  .next (s.skipIf (decide (s.readV x ≠ s.readV y)))

end Sys2Proof.Machine
end

