-- ==== Sys2Proof/Machine/Display.lean ====
section
/-! DEFINITION. Display instructions (42_display.md). -/

namespace Sys2Proof.Machine

/-- 00E0 CLS (R200): every pixel 0 and REDRAW 1, whatever the screen held. -/
def execCls (s : State) : Result :=
  .next { s with fb := Vector.replicate 32 0, redraw := true }.advance

/-- Dxyn DRW Vx, Vy, n (R201): the coordinates are read first, the sprite bytes are range-tested
before any write, VF is cleared, then every set bit is plotted. -/
def execDrw (x y : Reg) (n : Nat) (s : State) : Result :=
  match s.readBytes (s.effAddr 0) n with
  | none => raise .memRange s
  | some sprite =>
    .next ((s.writeV VF 0).drawRows (s.readV x).toNat (s.readV y).toNat sprite).advance

end Sys2Proof.Machine
end

