-- ==== Sys2Proof/Machine/KeysTimers.lean ====
section
/-! DEFINITION. Key and timer instructions (43_keys_timers.md). -/

namespace Sys2Proof.Machine

/-- Ex9E SKP Vx (R220, R226). -/
def execSkp (x : Reg) (s : State) : Result := .next (s.skipIf (s.keyOf x))

/-- ExA1 SKNP Vx (R221, R226). -/
def execSknp (x : Reg) (s : State) : Result := .next (s.skipIf (!s.keyOf x))

/-- Fx07 LD Vx, DT (R223). -/
def execLdVxDt (x : Reg) (s : State) : Result := .next (s.writeV x s.dt).advance

/-- Fx0A LD Vx, K (R222): with no key pressed nothing is written and PC stays on the instruction. -/
def execLdVxK (x : Reg) (s : State) : Result :=
  match s.lowestKey with
  | none => .next s
  | some k => .next (s.writeV x (BitVec.ofNat 8 k)).advance

/-- Fx15 LD DT, Vx (R224). -/
def execLdDtVx (x : Reg) (s : State) : Result := .next { s with dt := s.readV x }.advance

/-- Fx18 LD ST, Vx (R225). -/
def execLdStVx (x : Reg) (s : State) : Result := .next { s with st := s.readV x }.advance

end Sys2Proof.Machine
end

