-- ==== Sys2Proof/Machine/LoadAlu.lean ====
section
/-! DEFINITION. Load, arithmetic, logic, index and random instructions (41_load_alu.md). -/

namespace Sys2Proof.Machine

/-- 6xkk LD Vx, kk (R170). -/
def execLdImm (x : Reg) (kk : Byte) (s : State) : Result := .next (s.writeV x kk).advance

/-- 7xkk ADD Vx, kk (R171): modulo 256, VF is not changed by the carry. -/
def execAddImm (x : Reg) (kk : Byte) (s : State) : Result :=
  .next (s.writeV x (s.readV x + kk)).advance

/-- 8xy0 LD Vx, Vy (R172). -/
def execLdReg (x y : Reg) (s : State) : Result := .next (s.writeV x (s.readV y)).advance

/-- 8xy1 OR Vx, Vy (R173): VF unchanged. -/
def execOrReg (x y : Reg) (s : State) : Result :=
  .next (s.writeV x (s.readV x ||| s.readV y)).advance

/-- 8xy2 AND Vx, Vy (R174): VF unchanged. -/
def execAndReg (x y : Reg) (s : State) : Result :=
  .next (s.writeV x (s.readV x &&& s.readV y)).advance

/-- 8xy3 XOR Vx, Vy (R175): VF unchanged. -/
def execXorReg (x y : Reg) (s : State) : Result :=
  .next (s.writeV x (s.readV x ^^^ s.readV y)).advance

/-- 8xy4 ADD Vx, Vy (R176). -/
def execAddReg (x y : Reg) (s : State) : Result :=
  .next (s.finishFlagged x (aluAdd (s.readV x) (s.readV y)))

/-- 8xy5 SUB Vx, Vy (R177). -/
def execSub (x y : Reg) (s : State) : Result :=
  .next (s.finishFlagged x (aluSub (s.readV x) (s.readV y)))

/-- 8xy6 SHR Vx (R178): the y field is ignored (R179). -/
def execShr (x _y : Reg) (s : State) : Result := .next (s.finishFlagged x (aluShr (s.readV x)))

/-- 8xy7 SUBN Vx, Vy (R180). -/
def execSubn (x y : Reg) (s : State) : Result :=
  .next (s.finishFlagged x (aluSubn (s.readV x) (s.readV y)))

/-- 8xyE SHL Vx (R181): the y field is ignored (R179). -/
def execShl (x _y : Reg) (s : State) : Result := .next (s.finishFlagged x (aluShl (s.readV x)))

/-- Annn LD I, nnn (R182). -/
def execLdI (nnn : Addr12) (s : State) : Result := .next { s with i := zextAddr nnn }.advance

/-- Cxkk RND Vx, kk (R183): the random byte AND kk; the byte is free (log 2). -/
def execRnd (x : Reg) (kk : Byte) (s : State) : Result :=
  .next ((s.writeV x (s.randByte &&& kk)).drew).advance

/-- Fx1E ADD I, Vx (R184): modulo 65536, VF not written. -/
def execAddI (x : Reg) (s : State) : Result := .next { s with i := s.i + zext16 (s.readV x) }.advance

/-- Fx29 LD F, Vx (R185): V[x] is not masked. -/
def execLdF (x : Reg) (s : State) : Result := .next { s with i := glyphAddr (s.readV x) }.advance

end Sys2Proof.Machine
end

