-- ==== Sys2Proof/Machine/MemoryOps.lean ====
section
/-! DEFINITION. Memory instructions (44_memory_ops.md). None of them changes I (R243), and a
range that leaves MEM raises MEM_RANGE with nothing written (20_memory.md R86). -/

namespace Sys2Proof.Machine

/-- Fx33 LD B, Vx (R240): the three digits at I, I + 1, I + 2. -/
def execLdB (x : Reg) (s : State) : Result :=
  match s.writeBytes (s.effAddr 0) (bcdDigits (s.readV x)) with
  | none => raise .memRange s
  | some t => .next t.advance

/-- Fx55 LD [I], Vx (R241): V[0] to V[x] at I to I + x. -/
def execStRegs (x : Reg) (s : State) : Result :=
  match s.writeBytes (s.effAddr 0) (s.regsUpTo x) with
  | none => raise .memRange s
  | some t => .next t.advance

/-- Fx65 LD Vx, [I] (R242): V[0] to V[x] from I to I + x. -/
def execLdRegs (x : Reg) (s : State) : Result :=
  match s.readBytes (s.effAddr 0) (x.toNat + 1) with
  | none => raise .memRange s
  | some bytes => .next (s.writeRegsFrom 0 bytes).advance

end Sys2Proof.Machine
end

