-- ==== Sys2Proof/Machine/Events.lean ====
section
/-! DEFINITION. The host's events other than Cycle (10_state.md R50), the outputs that are functions
of the state (R52), and the dump (60_exceptions.md R282). -/

namespace Sys2Proof.Machine

/-- The host's side with an event output (R52); every event replaces the output of the one before. -/
def State.emit (s : State) (o : Option Output) : State := { s with env := { s.env with out := o } }

/-- The host's side with the events that are still to come. -/
def State.withInputs (s : State) (es : List Event) : State :=
  { s with env := { s.env with inputs := es } }

/-- `Boot(rom)` (70_reset_and_hazards.md R310 to R312): every piece of state zero, PC 0x200, the
font at 0x000, and the first 3584 bytes of the ROM from 0x200; the rest of a longer ROM is ignored.
The host's side keeps its pending events, its font and its count of draws (log 9). -/
def State.boot (s : State) (rom : List Byte) : State :=
  { State.reset with
    mem := Mem.cellsFrom s.env.font Config.romBase (rom.take Config.romMax)
    env := { s.env with rand := none, out := none } }

/-- A timer counts down by one while above 0 and stays at 0 (60_exceptions.md R275). -/
def countDown (t : Byte) : Byte := if t.toNat > 0 then t - 1 else t

/-- `TimerTick` (60_exceptions.md R276): beep from ST before the decrement. -/
def State.timerTick (s : State) : State :=
  { s with dt := countDown s.dt, st := countDown s.st }.emit (some (.beep (decide (s.st.toNat > 0))))

/-- `SetKeys(k)` (10_state.md R48). -/
def State.setKeys (s : State) (k : BitVec 16) : State := { s with keys := k }.emit none

/-- `RedrawAck` (60_exceptions.md R280). -/
def State.redrawAck (s : State) : State := { s with redraw := false }.emit none

/-- The order in which events that arrive at the same instant are performed (60_exceptions.md
R270): SetKeys and RedrawAck, then the Cycle, then the TimerTick. -/
def coincident (keys : Option (BitVec 16)) (ack : Bool) (cycle : Option Byte) (tick : Bool) :
    List Event :=
  (keys.map Event.setKeys).toList ++ (if ack then [Event.redrawAck] else []) ++
    (cycle.map Event.cycle).toList ++ (if tick then [Event.timerTick] else [])

/-! ## Outputs -/

/-- `sound_active = (ST > 0)` (R52, 60_exceptions.md R278). -/
def State.soundActive (s : State) : Bool := decide (s.st.toNat > 0)

/-- `ready = (HALTED = 0)` (R52, 60_exceptions.md R274). -/
def State.ready (s : State) : Bool := !s.halted

/-- What the diagnostic dump exposes (60_exceptions.md R282): V, PC, I, SP, DT, ST, STACK. A read of
the state, so it changes nothing; its text form is not specified (log 14). -/
def State.dump (s : State) :
    Vector Byte 16 × Word × Word × BitVec 5 × Byte × Byte × Vector Word 16 :=
  (s.v, s.pc, s.i, s.sp, s.dt, s.st, s.stack)

end Sys2Proof.Machine
end

