-- ==== Sys2Proof/Machine/Cycle.lean ====
section
/-! DEFINITION. The Cycle event (30_encoding.md R113) and the choice of the next event. -/

namespace Sys2Proof.Machine

/-- A Cycle is accepted: its random byte is latched on the host's side and no output is made yet.
No architectural state changes. -/
def State.accept (s : State) (rand : Option Byte) : State :=
  { s with env := { s.env with rand := rand, out := none } }

/-- An unknown opcode: `report Unknown(op, PC)` and `pc <- npc`, nothing else (R120,
60_exceptions.md R266). -/
def skipUnknown (op : Word) (s : State) : Result :=
  .next (s.emit (some (.unknown op s.pc))).advance

/-- Decode a fetched word and perform its rule (R113 steps 5 to 8). -/
def runWord (op : Word) (s : State) : Result :=
  match decode op with
  | .ok i => exec i s
  | .error _ => skipUnknown op s

/-- Fetch and run the instruction at PC (R113 steps 2 to 8); FETCH_RANGE when PC is above 0xFFE
(20_memory.md R84). -/
def fetchAndRun (s : State) : Result :=
  match s.fetch16 s.pc.toNat with
  | none => raise .fetchRange s
  | some op => runWord op s

/-- `Cycle(rand)` (R113): ignored when HALTED. `none` leaves the random byte free (log 2). -/
def cycle (rand : Option Byte) (s : State) : Result :=
  if s.halted then .next (s.accept rand) else fetchAndRun (s.accept rand)

/-- Perform one event (10_state.md R50). -/
def perform (e : Event) (s : State) : Result :=
  match e with
  | .boot rom => .next (s.boot rom)
  | .cycle rand => cycle (some rand) s
  | .timerTick => .next s.timerTick
  | .setKeys k => .next (s.setKeys k)
  | .redrawAck => .next s.redrawAck

/-- The next event: the first pending one, or a Cycle with a free random byte when the host has
none written down (log 1). -/
def nextEvent (s : State) : Result :=
  match s.env.inputs with
  | [] => cycle none s
  | e :: es => perform e (s.withInputs es)

/-- Put an instruction word at PC and let the next event be its Cycle; where no fetch could
happen (a halted core, PC above 0xFFE) the halt is cleared and PC set to 0x200 first (log 12). -/
def placeWord (s : State) (op : Word) : State :=
  let ready : State := { s.withInputs [] with halted := false, fault := 0 }
  let at' : State := if s.pc.toNat ≤ 0xFFE then ready else { ready with pc := 0x200 }
  (at'.writeBytes at'.pc.toNat [hiByte op, loByte op]).getD at'

end Sys2Proof.Machine
end

