-- ==== Sys2Proof/Machine/Step.lean ====
section
/-! DEFINITION. The step: one event. -/

namespace Sys2Proof.Machine

/-- One step of the machine: one atomic event (00_scope.md R9). -/
def step (s : State) : Host.Outcome State Fault Refusal := Sys2Proof.Machine.nextEvent s

/-- `s` with the one-word instruction `w` (of `nbits` bits) where the next step fetches it, high
byte at PC (20_memory.md R83). -/
def State.withFetchWord (s : State) (nbits w : Nat) : State :=
  Sys2Proof.Machine.placeWord s (BitVec.ofNat 16 (w % 2 ^ nbits))

end Sys2Proof.Machine
end

