-- ==== Sys2Proof/Safety.lean ====
section
/-! DEFINITION. What claims say of states and runs: the invariants of 10_state.md R57, the exact
fault conditions of 60_exceptions.md R261, and a finished program (70_reset_and_hazards.md R317). -/

namespace Sys2Proof.Machine

/-- The invariants of 10_state.md R57 (a) to (e); (f) is the width of DT and ST. -/
structure State.Inv (s : State) : Prop where
  /-- (a) SP is at most 16. -/
  spLegal : s.sp.toNat ≤ 16
  /-- (b) HALTED = 1 exactly when FAULT is not 0. -/
  haltedIff : s.halted = true ↔ s.fault ≠ 0
  /-- (c) FAULT is one of 0 to 4. -/
  faultLegal : s.fault.toNat ≤ 4
  /-- (d) If HALTED = 0 every stack entry below SP is at most 0x1000. -/
  returnsLegal : s.halted = false →
    ∀ k : Fin 16, k.val < s.sp.toNat → (s.stack[k]).toNat ≤ 0x1000
  /-- (e) The memory lists only addresses of MEM, in its canonical form. -/
  memCanonical : Memory.wf s.env.font s.mem = true

/-- The fault an instruction raises in a state, by the exact conditions of R261. -/
def faultOf (i : Instr) (s : State) : Option FaultCode :=
  match i with
  | .call _ => if s.sp = 16 then some .stackOverflow else none
  | .ret => if s.sp = 0 then some .stackUnderflow else none
  | .drw _ _ n => if 0 < n ∧ s.i.toNat + n - 1 > 0xFFF then some .memRange else none
  | .ldB _ => if s.i.toNat + 2 > 0xFFF then some .memRange else none
  | .stRegs x | .ldRegs x => if s.i.toNat + x.toNat > 0xFFF then some .memRange else none
  | .cls | .jp _ | .seImm _ _ | .sneImm _ _ | .seReg _ _ | .ldImm _ _ | .addImm _ _ | .ldReg _ _
  | .orReg _ _ | .andReg _ _ | .xorReg _ _ | .addReg _ _ | .sub _ _ | .shr _ _ | .subn _ _
  | .shl _ _ | .sneReg _ _ | .ldI _ | .jpV0 _ | .rnd _ _ | .skp _ | .sknp _ | .ldVxDt _ | .ldVxK _
  | .ldDtVx _ | .ldStVx _ | .addI _ | .ldF _ => none

/-- A finished program (R317 (c)): PC points at a 1nnn whose nnn is PC, on a core that runs. -/
def State.finished (s : State) : Prop :=
  s.halted = false ∧ ∃ nnn : Addr12, zextAddr nnn = s.pc ∧
    s.fetch16 s.pc.toNat = some (encode (.jp nnn))

/-- Every byte of memory reads as before. -/
def sameMemory (s t : State) : Prop := ∀ a : Nat, t.memRead a = s.memRead a

/-- Two states agree on everything architectural, every byte of memory included, and run with the
same font; only the rest of the host's side may differ. -/
def State.sameCore (s t : State) : Prop :=
  t = { s with env := t.env } ∧ t.env.font = s.env.font ∧ sameMemory s t

/-- The next event is a Cycle: the first pending event is one, or none is pending (log 1). -/
def State.cycleNext (s : State) : Prop :=
  s.env.inputs = [] ∨ ∃ r es, s.env.inputs = .cycle r :: es

/-- `n` steps, one after the other. -/
def runSteps : Nat → State → Result
  | 0, s => .next s
  | n + 1, s =>
    match step s with
    | .next t => runSteps n t
    | .fault f => .fault f
    | .refused r => .refused r

/-! ## Vocabulary of the statements: what one instruction wrote, and its frame

In each of these `s` is the state before and `t` the state after; the record equation says that
every field not named is unchanged, the host's side included, and the clause on `memRead` that
every byte of memory reads as before. -/

/-- `pc <- npc` (30_encoding.md R114), said on numbers. -/
def advanced (s t : State) : Prop := t.pc.toNat = (s.pc.toNat + 2) % 65536

/-- V[x] became b, PC advanced, nothing else changed. -/
def wroteV (s t : State) (x : Reg) (b : Byte) : Prop :=
  t.readV x = b ∧ (∀ z : Reg, z ≠ x → t.readV z = s.readV z) ∧ advanced s t ∧
    t = { s with v := t.v, pc := t.pc } ∧ sameMemory s t

/-- A flag-writing ALU instruction (41_load_alu.md R188): V[x] became `result`; for x other than
15, VF is 1 exactly when `flag` holds and 0 otherwise; with x = 15 the result is what VF keeps. -/
def wroteFlagged (s t : State) (x : Reg) (result : Nat) (flag : Prop) : Prop :=
  (t.readV x).toNat = result ∧
    (x ≠ VF → (flag → t.readV VF = 1) ∧ (¬ flag → t.readV VF = 0)) ∧
    (∀ z : Reg, z ≠ x → z ≠ VF → t.readV z = s.readV z) ∧ advanced s t ∧
    t = { s with v := t.v, pc := t.pc } ∧ sameMemory s t

/-- A conditional skip (40_control_flow.md R159): PC goes up by 4 when the condition holds and by
2 when it does not, and nothing else changes. -/
def skippedIf (s t : State) (c : Prop) : Prop :=
  (c → t.pc.toNat = (s.pc.toNat + 4) % 65536) ∧ (¬ c → t.pc.toNat = (s.pc.toNat + 2) % 65536) ∧
    t = { s with pc := t.pc } ∧ sameMemory s t

/-- A set bit of the n-row sprite at I, drawn from (V[x], V[y]), lands on the pixel of row r and
column c (42_display.md R201, R202). -/
def spriteCovers (s : State) (x y : Reg) (n : Nat) (r : Fin 32) (c : Fin 64) : Prop :=
  ∃ row bit : Nat, ∃ b : Byte, row < n ∧ bit < 8 ∧ s.memRead (s.effAddr row) = some b ∧
    b.getLsbD (7 - bit) = true ∧ r.val = ((s.readV y).toNat + row) % 32 ∧
    c.val = ((s.readV x).toNat + bit) % 64

/-- The bytes an instruction stores, the first at I (20_memory.md R88). -/
def storedBytes (i : Instr) (s : State) : List Byte :=
  match i with
  | .ldB x => bcdDigits (s.readV x)
  | .stRegs x => s.regsUpTo x
  | .cls | .ret | .jp _ | .call _ | .seImm _ _ | .sneImm _ _ | .seReg _ _ | .ldImm _ _ | .addImm _ _
  | .ldReg _ _ | .orReg _ _ | .andReg _ _ | .xorReg _ _ | .addReg _ _ | .sub _ _ | .shr _ _
  | .subn _ _ | .shl _ _ | .sneReg _ _ | .ldI _ | .jpV0 _ | .rnd _ _ | .drw _ _ _ | .skp _ | .sknp _
  | .ldVxDt _ | .ldVxK _ | .ldDtVx _ | .ldStVx _ | .addI _ | .ldF _ | .ldRegs _ => []

/-- What address `a` reads as once an instruction has completed: the byte it stored there, or the
byte from before. -/
def byteAfter (i : Instr) (s : State) (a : Nat) : Option Byte :=
  if s.effAddr 0 ≤ a ∧ a < s.effAddr 0 + (storedBytes i s).length then
    (storedBytes i s)[a - s.effAddr 0]?
  else s.memRead a

/-- The registers an instruction may write (10_state.md R31). -/
def mayWriteV (i : Instr) (z : Reg) : Prop :=
  match i with
  | .ldImm x _ | .addImm x _ | .rnd x _ => z = x
  | .ldReg x _ | .orReg x _ | .andReg x _ | .xorReg x _ => z = x
  | .ldVxDt x | .ldVxK x => z = x
  | .addReg x _ | .sub x _ | .shr x _ | .subn x _ | .shl x _ => z = x ∨ z = VF
  | .drw _ _ _ => z = VF
  | .ldRegs x => z.toNat ≤ x.toNat
  | .cls | .ret | .jp _ | .call _ | .seImm _ _ | .sneImm _ _ | .seReg _ _ | .sneReg _ _ | .ldI _
  | .jpV0 _ | .skp _ | .sknp _ | .ldDtVx _ | .ldStVx _ | .addI _ | .ldF _ | .ldB _
  | .stRegs _ => False

end Sys2Proof.Machine
end

