-- ==== Sys2Proof/Certificates/Slice0/Obligations.lean ====
section
/-! DEFINITION. The statements for the provers. Each docstring names the rule of spec/ it follows;
a clause that rests on a sentence the spec marks as its own decision names that decision. -/

open Sys2Proof Sys2Proof.Machine

/-! ## Encoding and decoding -/

/-- Words of 95_test_vectors.md section 2.1, each written out there beside what it decodes as, and,
for the four families that section has no word of (4, 7, A, C), the words of its vectors CF11, A3, A38
and A39: with them, one word or more of every family, with the fields of 30_encoding.md R112. -/
def Obligations.SpecWordsDecodeAsListed : Prop :=
  decode 0x00E0 = .ok .cls ∧ decode 0x00EE = .ok .ret ∧
  decode 0x0000 = .error (.unknownOpcode 0x0000) ∧ decode 0x01E0 = .error (.unknownOpcode 0x01E0) ∧
  decode 0x1ABC = .ok (.jp 0xABC) ∧ decode 0x2FFF = .ok (.call 0xFFF) ∧
  decode 0x3A7F = .ok (.seImm 10 0x7F) ∧ decode 0x5120 = .ok (.seReg 1 2) ∧
  decode 0x5121 = .error (.unknownOpcode 0x5121) ∧ decode 0x6F01 = .ok (.ldImm 15 1) ∧
  decode 0x8AB4 = .ok (.addReg 10 11) ∧ decode 0x8ABF = .error (.unknownOpcode 0x8ABF) ∧
  decode 0x8ABE = .ok (.shl 10 11) ∧ decode 0x9AB0 = .ok (.sneReg 10 11) ∧
  decode 0xB123 = .ok (.jpV0 0x123) ∧ decode 0xD01F = .ok (.drw 0 1 15) ∧
  decode 0xE19E = .ok (.skp 1) ∧ decode 0xE19F = .error (.unknownOpcode 0xE19F) ∧
  decode 0x4542 = .ok (.sneImm 5 0x42) ∧ decode 0x71FF = .ok (.addImm 1 0xFF) ∧
  decode 0xAFFF = .ok (.ldI 0xFFF) ∧ decode 0xC30F = .ok (.rnd 3 0x0F) ∧
  decode 0xF107 = .ok (.ldVxDt 1) ∧ decode 0xF175 = .error (.unknownOpcode 0xF175) ∧
  decode 0xFF65 = .ok (.ldRegs 15)

/-- Encoding an instruction and decoding its bytes gives the instruction back, for every
instruction that has an encoding, with every operand the encoding admits, whatever bytes follow
(30_encoding.md R111, R112, R118). -/
def Obligations.DecodeOfEncodeIsIdentity : Prop :=
  ∀ (i : Instr) (rest : List Byte), i.wf = true →
    decodeBytes (encodeBytes i ++ rest) = .ok (i, rest)

/-- The other direction: a word that decodes is the word its instruction encodes to, and the
instruction is well formed, so no two words share an instruction (30_encoding.md R110, R118). -/
def Obligations.DecodedWordEncodesBack : Prop :=
  ∀ (op : Word) (i : Instr), decode op = .ok i → encode i = op ∧ i.wf = true

/-- 30_encoding.md R118: a word is the instruction of a row exactly when (op AND mask) = match.
The table has 34 rows, and for every word and every row the decoder agrees with the row's mask and
match. -/
def Obligations.DecoderFollowsOpcodeTable : Prop :=
  opcodeTable.length = 34 ∧
  ∀ (op : Word) (k : Nat) (row : OpcodeRow), opcodeTable[k]? = some row →
    ((op &&& row.mask) = row.pattern ↔ ∃ i : Instr, decode op = .ok i ∧ rowIndex i = k)

/-- 30_encoding.md R121: the words the decoder rejects are exactly those the rule lists, family by
family. The rule is the spec's own derivation from R118 and R119. -/
def Obligations.UnknownWordsAreThoseListed : Prop :=
  ∀ op : Word, decode op = .error (.unknownOpcode op) ↔
    let family := op.toNat / 4096
    let low := op.toNat % 16
    let ll := op.toNat % 256
    (family = 0x0 ∧ op.toNat ≠ 0x00E0 ∧ op.toNat ≠ 0x00EE) ∨
    (family = 0x5 ∧ low ≠ 0) ∨
    (family = 0x8 ∧ 8 ≤ low ∧ low ≠ 0xE) ∨
    (family = 0x9 ∧ low ≠ 0) ∨
    (family = 0xE ∧ ll ≠ 0x9E ∧ ll ≠ 0xA1) ∨
    (family = 0xF ∧ ll ≠ 0x07 ∧ ll ≠ 0x0A ∧ ll ≠ 0x15 ∧ ll ≠ 0x18 ∧ ll ≠ 0x1E ∧ ll ≠ 0x29 ∧
      ll ≠ 0x33 ∧ ll ≠ 0x55 ∧ ll ≠ 0x65)

/-- 30_encoding.md R112: the fields stand at fixed positions of the word. -/
def Obligations.FieldsStandAtFixedPositions : Prop :=
  ∀ op : Word,
    (fieldFamily op).toNat = op.toNat / 2 ^ 12 ∧ (fieldNnn op).toNat = op.toNat % 2 ^ 12 ∧
    (fieldX op).toNat = op.toNat / 2 ^ 8 % 2 ^ 4 ∧ (fieldY op).toNat = op.toNat / 2 ^ 4 % 2 ^ 4 ∧
    (fieldN op).toNat = op.toNat % 2 ^ 4 ∧ (fieldKk op).toNat = op.toNat % 2 ^ 8

/-! ## The step: fetch, events, faults -/

/-- 20_memory.md R83: the fetch combines the bytes at a and a + 1, high byte first. -/
def Obligations.FetchIsBigEndian : Prop :=
  ∀ (s : State) (a : Nat) (hi lo : Byte), s.memRead a = some hi → s.memRead (a + 1) = some lo →
    ∃ op : Word, s.fetch16 a = some op ∧ op.toNat = hi.toNat * 256 + lo.toNat

/-- 30_encoding.md R113: on a core that runs, when the two bytes at PC decode to an instruction,
the Cycle is that instruction's exec at the state in which the Cycle was accepted (only the host's
side of it differs: the random byte, and no output yet). The Cycle is the first pending event, or
what a step performs when no event is pending (log 1). -/
def Obligations.StepRunsDecodedInstruction : Prop :=
  ∀ (s : State) (hi lo : Byte) (rest : List Byte) (i : Instr),
    s.halted = false → s.memRead s.pc.toNat = some hi → s.memRead (s.pc.toNat + 1) = some lo →
    decodeBytes (hi :: lo :: rest) = .ok (i, rest) →
    (s.env.inputs = [] → step s = exec i (s.accept none)) ∧
    (∀ (r : Byte) (es : List Event), s.env.inputs = .cycle r :: es →
      step s = exec i ((s.withInputs es).accept (some r)))

/-- 20_memory.md R84, 60_exceptions.md R262: a Cycle with PC above 0xFFE sets HALTED and FAULT = 4
and changes nothing else of the machine. Rests on the spec's decisions D3, D4, D6. -/
def Obligations.FetchBeyondMemoryHalts : Prop :=
  ∀ s : State, s.halted = false → s.cycleNext → 0xFFE < s.pc.toNat →
    ∃ t : State, step s = .next t ∧ t.halted = true ∧ t.fault = 4 ∧
      t = { s with halted := true, fault := 4, env := t.env } ∧ t.env.font = s.env.font ∧
      sameMemory s t

/-- 30_encoding.md R120: an unknown opcode is reported and skipped, and no other state changes. -/
def Obligations.UnknownOpcodeIsReportedAndSkipped : Prop :=
  ∀ (s : State) (op : Word) (why : DecodeReject), s.halted = false → s.cycleNext →
    s.fetch16 s.pc.toNat = some op → decode op = .error why →
    ∃ t : State, step s = .next t ∧ advanced s t ∧ t.env.out = some (.unknown op s.pc) ∧
      t = { s with pc := t.pc, env := t.env } ∧ t.env.font = s.env.font ∧ sameMemory s t

/-- 60_exceptions.md R264: while HALTED = 1 a Cycle changes no architectural state and makes no
output. Rests on the spec's decision D26. -/
def Obligations.HaltedCycleChangesNothing : Prop :=
  ∀ s : State, s.halted = true → s.cycleNext →
    ∃ t : State, step s = .next t ∧ s.sameCore t ∧ t.env.out = none

/-- 10_state.md R49, 60_exceptions.md R264: HALTED and FAULT are sticky; a step from a halted
state that is not a Boot leaves both as they are. Rests on the spec's decision D3. -/
def Obligations.OnlyBootEndsAHalt : Prop :=
  ∀ s t : State, s.halted = true → step s = .next t →
    (t.halted = true ∧ t.fault = s.fault) ∨ ∃ rom es, s.env.inputs = .boot rom :: es

/-- The model's own convention (log 12): a word placed for fetching is what the next step decodes
and runs, from every state. -/
def Obligations.PlacedWordIsTheNextInstruction : Prop :=
  ∀ (s : State) (i : Instr), i.wf = true →
    ∃ u : State, step (s.withFetchWord 16 (encode i).toNat) = exec i u ∧ u.halted = false ∧
      u = { s with mem := u.mem, pc := u.pc, halted := false, fault := 0, env := u.env } ∧
      u.env.font = s.env.font ∧ (s.pc.toNat ≤ 0xFFE → u.pc = s.pc) ∧
      ∀ a : Nat, a ≠ u.pc.toNat → a ≠ u.pc.toNat + 1 → u.memRead a = s.memRead a

/-- 60_exceptions.md R261, R262: in every state with a legal SP, an instruction raises exactly the
fault that R261 gives for it, and then writes HALTED and FAULT and nothing else; in every other
case it answers a next state with HALTED and FAULT as they were. R261 is the spec's own derivation;
the codes, the stack underflow and fault entry are its decisions D3, D4, D5, D7. -/
def Obligations.InstructionsFaultExactlyAsListed : Prop :=
  ∀ (i : Instr) (s : State), s.sp.toNat ≤ 16 →
    (∀ c, faultOf i s = some c → exec i s = .next { s with halted := true, fault := c.code }) ∧
    (faultOf i s = none → ∃ t, exec i s = .next t ∧ t.halted = s.halted ∧ t.fault = s.fault)

/-! ## Invariants -/

/-- The state after reset meets the invariant of 10_state.md R57. -/
def Obligations.ResetMeetsInvariant : Prop := State.reset.Inv

/-- 10_state.md R57: every step, whatever event it is, keeps the invariant: SP at most 16, HALTED
exactly when FAULT is not 0, FAULT at most 4, every live stack entry at most 0x1000, memory in
canonical form with no byte above 0xFFF. The rule is the spec's own derivation; the canonical form
is the model's (log 7). -/
def Obligations.StepKeepsInvariant : Prop :=
  ∀ s t : State, s.Inv → step s = .next t → t.Inv

/-- From a state that meets the invariant, the model never stops: every step answers a next state
(the model's one stop, log 5, is out of reach). -/
def Obligations.InvariantStatesAlwaysStep : Prop :=
  ∀ s : State, s.Inv → ∃ t : State, step s = .next t

/-- 10_state.md R37: the largest PC a completed Cycle can leave is 0x10FE. The sentence is the
spec's own derivation. -/
def Obligations.CompletedCycleLeavesPcAtMost10FE : Prop :=
  ∀ s t : State, s.Inv → s.halted = false → s.cycleNext → step s = .next t →
    t.halted = false → t.pc.toNat ≤ 0x10FE

/-! ## Which instruction writes what: over all instructions -/

/-- 10_state.md R38, R39: SP and STACK are written only by 2nnn and 00EE, and STACK only by
2nnn. -/
def Obligations.OnlyCallAndReturnTouchTheStack : Prop :=
  ∀ (i : Instr) (s t : State), exec i s = .next t →
    ((∀ nnn, i ≠ .call nnn) → t.stack = s.stack) ∧
    ((∀ nnn, i ≠ .call nnn) → i ≠ .ret → t.sp = s.sp)

/-- 10_state.md R34: I is written only by Annn, Fx1E and Fx29; in particular Dxyn, Fx33, Fx55 and
Fx65 leave it as it was. -/
def Obligations.OnlyIndexInstructionsWriteI : Prop :=
  ∀ (i : Instr) (s t : State), exec i s = .next t →
    (∀ nnn, i ≠ .ldI nnn) → (∀ x, i ≠ .addI x) → (∀ x, i ≠ .ldF x) → t.i = s.i

/-- 20_memory.md R88: no instruction but Fx33 and Fx55 writes memory, and those two write only
inside the ranges of the rule's table. -/
def Obligations.OnlyBcdAndDumpWriteMemory : Prop :=
  ∀ (i : Instr) (s t : State) (a : Nat), exec i s = .next t → t.memRead a ≠ s.memRead a →
    (∃ x, i = .ldB x ∧ s.effAddr 0 ≤ a ∧ a ≤ s.effAddr 2) ∨
    (∃ x : Reg, i = .stRegs x ∧ s.effAddr 0 ≤ a ∧ a ≤ s.effAddr x.toNat)

/-- 10_state.md R46, R47: pixels and REDRAW are written only by 00E0 and Dxyn, and no instruction
clears REDRAW. -/
def Obligations.OnlyClearAndDrawWriteTheScreen : Prop :=
  ∀ (i : Instr) (s t : State), exec i s = .next t →
    (i ≠ .cls → (∀ x y n, i ≠ .drw x y n) → t.fb = s.fb ∧ t.redraw = s.redraw) ∧
    (s.redraw = true → t.redraw = true)

/-- 10_state.md R42, R43, R44, R48: of the instructions only Fx15 writes DT and only Fx18 writes
ST, none decrements a timer, and none writes the key latch. -/
def Obligations.OnlyTimerMovesWriteTimers : Prop :=
  ∀ (i : Instr) (s t : State), exec i s = .next t →
    ((∀ x, i ≠ .ldDtVx x) → t.dt = s.dt) ∧ ((∀ x, i ≠ .ldStVx x) → t.st = s.st) ∧ t.keys = s.keys

/-- 10_state.md R31: an instruction changes no general register but those the rule lists for it.
The rule is the spec's own derivation. -/
def Obligations.RegisterWritesFollowTheListing : Prop :=
  ∀ (i : Instr) (s t : State) (z : Reg), exec i s = .next t → ¬ mayWriteV i z →
    t.readV z = s.readV z

/-- 10_state.md R51: instructions other than Cxkk ignore the random byte: with another byte the
instruction does the same and leaves the byte as it is. Rests on the spec's decision D19. -/
def Obligations.RandomByteReachesOnlyRnd : Prop :=
  ∀ (i : Instr) (s t : State) (r : Option Byte), (∀ x kk, i ≠ .rnd x kk) → exec i s = .next t →
    exec i { s with env := { s.env with rand := r } } =
      .next { t with env := { t.env with rand := r } }

/-- 10_state.md R54 (d), R52: an event output is not stored by the machine: what the last event
put out has no effect on any step. The output field is the model's own (log 3). -/
def Obligations.OutputsAreNotFedBack : Prop :=
  ∀ (s : State) (o : Option Output), step (s.emit o) = step s

/-! ## Reset and the host's events -/

/-- 70_reset_and_hazards.md R310, R311: Boot(rom) from any state, also a halted one, zeroes every
register, the stack, the screen and the keys, sets PC to 0x200, and leaves in memory the font, then
zeros, the first 3584 bytes of the ROM from 0x200, and zeros; it cannot fail. -/
def Obligations.BootResetsAndLoadsTheRom : Prop :=
  ∀ (s : State) (rom : List Byte) (es : List Event), s.env.inputs = .boot rom :: es →
    ∃ t : State, step s = .next t ∧
      (∀ x, t.readV x = 0) ∧ t.i = 0 ∧ t.pc = 0x200 ∧ t.sp = 0 ∧ (∀ k : Fin 16, t.stack[k] = 0) ∧
      (∀ r c, t.pixel r c = false) ∧ t.dt = 0 ∧ t.st = 0 ∧ t.keys = 0 ∧ t.redraw = false ∧
      t.halted = false ∧ t.fault = 0 ∧ t.ready = true ∧
      (∀ a : Fin 80, t.memRead a.val = some s.env.font[a]) ∧
      (∀ a, 80 ≤ a → a < 0x200 → t.memRead a = some 0) ∧
      (∀ k, k < 3584 → t.memRead (0x200 + k) = some (rom[k]?.getD 0)) ∧
      (∀ a, 4096 ≤ a → t.memRead a = none)

/-- State.reset is the state Boot of the empty ROM leaves, on a host with the default font and
nothing pending (log 7). -/
def Obligations.BootOfEmptyRomIsReset : Prop :=
  ∀ s : State, s.env = { State.reset.env with inputs := [.boot []] } →
    step s = .next State.reset

/-- 60_exceptions.md R276: TimerTick emits beep from ST before the decrement, decrements each timer
that is above 0, keeps a timer at 0, and changes nothing else, no byte of memory either. It does so
whether or not the core is halted. The test before the decrement, and that a halted core still ticks,
are the spec's decision D21. -/
def Obligations.TimerTickCountsDownAndBeeps : Prop :=
  ∀ (s : State) (es : List Event), s.env.inputs = .timerTick :: es →
    ∃ t : State, step s = .next t ∧
      (0 < s.dt.toNat → t.dt.toNat = s.dt.toNat - 1) ∧ (s.dt.toNat = 0 → t.dt = 0) ∧
      (0 < s.st.toNat → t.st.toNat = s.st.toNat - 1) ∧ (s.st.toNat = 0 → t.st = 0) ∧
      t.env.out = some (.beep (decide (0 < s.st.toNat))) ∧ t.env.inputs = es ∧
      t = { s with dt := t.dt, st := t.st, env := t.env } ∧ t.env.font = s.env.font ∧ sameMemory s t

/-- 60_exceptions.md R275, R278: with k + 1 ticks pending, after k of them each timer is its start
value less k, never below 0, sound is active exactly when k is less than the value ST started with,
nothing else has changed, and the next tick beeps exactly then. So a Fx18 that writes n, followed by
ticks, gives exactly n beeps, on the first n of them. The test before the decrement is the spec's
decision D21; that the pending events stand in the state is the model's convention (log 1). -/
def Obligations.TicksRunTheTimersDown : Prop :=
  ∀ (s : State) (k : Nat) (es : List Event),
    (s.env.inputs = List.replicate (k + 1) .timerTick ++ es →
      ∃ t u : State, runSteps k s = .next t ∧ step t = .next u ∧
        t.dt.toNat = s.dt.toNat - k ∧ t.st.toNat = s.st.toNat - k ∧
        t.soundActive = decide (k < s.st.toNat) ∧
        u.env.out = some (.beep (decide (k < s.st.toNat))) ∧ u.env.inputs = es ∧
        t = { s with dt := t.dt, st := t.st, env := t.env } ∧ t.env.font = s.env.font ∧
        sameMemory s t) ∧
    (∀ (x : Reg) (r : Byte), s.halted = false →
      s.fetch16 s.pc.toNat = some (encode (.ldStVx x)) →
      s.env.inputs = .cycle r :: (List.replicate (k + 1) .timerTick ++ es) →
      ∃ w t u : State, step s = .next w ∧ runSteps k w = .next t ∧ step t = .next u ∧
        w.st = s.readV x ∧ w.soundActive = decide (0 < (s.readV x).toNat) ∧
        t.st.toNat = (s.readV x).toNat - k ∧
        u.env.out = some (.beep (decide (k < (s.readV x).toNat))) ∧ u.env.inputs = es)

/-- 10_state.md R48, 60_exceptions.md R280: SetKeys writes all sixteen key bits and nothing else,
RedrawAck clears REDRAW and nothing else; neither changes a byte of memory. That KEYS is state written
by an event is the spec's decision D28. -/
def Obligations.KeysAndAckWriteOnlyTheirRegister : Prop :=
  ∀ (s : State) (es : List Event),
    (∀ k, s.env.inputs = .setKeys k :: es →
      ∃ t : State, step s = .next t ∧ t.keys = k ∧ t.env.inputs = es ∧
        t = { s with keys := k, env := t.env } ∧ t.env.font = s.env.font ∧ sameMemory s t) ∧
    (s.env.inputs = .redrawAck :: es →
      ∃ t : State, step s = .next t ∧ t.redraw = false ∧ t.env.inputs = es ∧
        t = { s with redraw := false, env := t.env } ∧ t.env.font = s.env.font ∧ sameMemory s t)

/-- 60_exceptions.md R270: events that arrive together are performed SetKeys and RedrawAck first,
then the Cycle, then the TimerTick, with or without the first two and whatever the Cycle runs. Before
the Cycle KEYS and REDRAW alone have changed; the tick then decrements the timers the Cycle left, beeps
from the ST it left, and changes nothing else. So the Cycle's Fx07 reads DT before the decrement, the
value its Fx15 or Fx18 writes is decremented, its Ex9E, ExA1 and Fx0A see the new keys, and a redraw it
asks for is not lost. The order is the spec's decision D21. -/
def Obligations.CoincidingTickFollowsTheCycle : Prop :=
  ∀ (s : State) (keys : Option (BitVec 16)) (ack : Bool) (r : Byte),
    s.env.inputs = coincident keys ack (some r) true →
    ∃ b : State,
      runSteps ((if keys.isSome then 1 else 0) + (if ack then 1 else 0)) s = .next b ∧
      b.env.inputs = [.cycle r, .timerTick] ∧
      b.keys = keys.getD s.keys ∧ b.redraw = (s.redraw && !ack) ∧
      b = { s with keys := b.keys, redraw := b.redraw, env := b.env } ∧
      b.env.font = s.env.font ∧ sameMemory s b ∧
      ∀ t u : State, step b = .next t → step t = .next u →
        (u.dt.toNat = t.dt.toNat - 1 ∧ u.st.toNat = t.st.toNat - 1 ∧
          u.env.out = some (.beep (decide (0 < t.st.toNat))) ∧ u.env.inputs = [] ∧
          u = { t with dt := u.dt, st := u.st, env := u.env } ∧ sameMemory t u) ∧
        ∀ x : Reg, s.halted = false →
          (s.fetch16 s.pc.toNat = some (encode (.ldVxDt x)) →
            u.readV x = s.dt ∧ u.dt.toNat = s.dt.toNat - 1) ∧
          (s.fetch16 s.pc.toNat = some (encode (.ldDtVx x)) →
            u.dt.toNat = (s.readV x).toNat - 1) ∧
          (s.fetch16 s.pc.toNat = some (encode (.ldStVx x)) →
            u.st.toNat = (s.readV x).toNat - 1 ∧
              u.env.out = some (.beep (decide (0 < (s.readV x).toNat)))) ∧
          (s.fetch16 s.pc.toNat = some (encode (.skp x)) →
            u.pc = if (keys.getD s.keys).getLsbD ((s.readV x).toNat % 16) then s.pc + 4
              else s.pc + 2) ∧
          (s.fetch16 s.pc.toNat = some (encode (.sknp x)) →
            u.pc = if (keys.getD s.keys).getLsbD ((s.readV x).toNat % 16) then s.pc + 2
              else s.pc + 4) ∧
          (s.fetch16 s.pc.toNat = some (encode (.ldVxK x)) →
            u.pc = if keys.getD s.keys = 0 then s.pc else s.pc + 2) ∧
          (s.fetch16 s.pc.toNat = some (encode .cls) → u.redraw = true)

/-! ## Control flow -/

/-- 40_control_flow.md R151: 1nnn sets PC to the zero-extended nnn and nothing else. -/
def Obligations.JumpSetsPc : Prop :=
  ∀ (s : State) (nnn : Addr12), ∃ t : State, exec (.jp nnn) s = .next t ∧
    t.pc.toNat = nnn.toNat ∧ t = { s with pc := t.pc } ∧ sameMemory s t

/-- 40_control_flow.md R153: Bnnn sets PC to V[0] + nnn, a 16-bit sum that is not reduced to 12
bits, and nothing else. Rests on the spec's decision D18. -/
def Obligations.JumpV0AddsWithoutReduction : Prop :=
  ∀ (s : State) (nnn : Addr12), ∃ t : State, exec (.jpV0 nnn) s = .next t ∧
    t.pc.toNat = (s.readV 0).toNat + nnn.toNat ∧ t = { s with pc := t.pc } ∧ sameMemory s t

/-- 40_control_flow.md R152: with fewer than 16 entries in use 2nnn stores npc at STACK[SP], adds 1
to SP and sets PC to nnn, every other entry and everything else unchanged; with SP = 16 it faults
with STACK_OVERFLOW and nothing else is written. -/
def Obligations.CallPushesTheNextAddress : Prop :=
  ∀ (s : State) (nnn : Addr12),
    (∀ h : s.sp.toNat < 16, ∃ t : State, exec (.call nnn) s = .next t ∧
      (t.stack[s.sp.toNat]).toNat = (s.pc.toNat + 2) % 65536 ∧
      (∀ k : Fin 16, k.val ≠ s.sp.toNat → t.stack[k] = s.stack[k]) ∧
      t.sp.toNat = s.sp.toNat + 1 ∧ t.pc.toNat = nnn.toNat ∧
      t = { s with stack := t.stack, sp := t.sp, pc := t.pc } ∧ sameMemory s t) ∧
    (s.sp.toNat = 16 → exec (.call nnn) s = .next { s with halted := true, fault := 1 })

/-- 40_control_flow.md R150: with 1 to 16 entries in use 00EE subtracts 1 from SP and sets PC to the
entry at the new SP, which keeps its value, everything else unchanged; with SP = 0 it faults with
STACK_UNDERFLOW and nothing else is written (the spec's decision D7). -/
def Obligations.ReturnPopsTheTarget : Prop :=
  ∀ s : State,
    (∀ k : Fin 16, s.sp.toNat = k.val + 1 → ∃ t : State, exec .ret s = .next t ∧
      t.sp.toNat = k.val ∧ t.pc = s.stack[k] ∧ t = { s with sp := t.sp, pc := t.pc } ∧
      sameMemory s t) ∧
    (s.sp.toNat = 0 → exec .ret s = .next { s with halted := true, fault := 2 })

/-- The stack round trip quoted in 40_control_flow.md R152: CALL and then RET restores PC to the
instruction after the CALL and SP to its value before it, and changes nothing else but the stack entry
it used: no other entry, register, timer, pixel or byte. -/
def Obligations.CallThenReturnRestoresPcAndSp : Prop :=
  ∀ (s : State) (nnn : Addr12), s.sp.toNat < 16 →
    ∃ t u : State, exec (.call nnn) s = .next t ∧ exec .ret t = .next u ∧ advanced s u ∧
      u.sp = s.sp ∧ (∀ k : Fin 16, k.val ≠ s.sp.toNat → u.stack[k] = s.stack[k]) ∧
      u = { s with pc := u.pc, stack := u.stack } ∧ sameMemory s u

/-- 40_control_flow.md R154 to R157: the four compare-and-skip instructions skip the next
instruction exactly when their condition holds, and change only PC. -/
def Obligations.CompareAndSkip : Prop :=
  ∀ (s : State) (x y : Reg) (kk : Byte),
    (∃ t, exec (.seImm x kk) s = .next t ∧ skippedIf s t (s.readV x = kk)) ∧
    (∃ t, exec (.sneImm x kk) s = .next t ∧ skippedIf s t (s.readV x ≠ kk)) ∧
    (∃ t, exec (.seReg x y) s = .next t ∧ skippedIf s t (s.readV x = s.readV y)) ∧
    (∃ t, exec (.sneReg x y) s = .next t ∧ skippedIf s t (s.readV x ≠ s.readV y))

/-- A program that has reached a jump to itself (70_reset_and_hazards.md R317 (c), 40_control_flow.md
R151) stays there: a Cycle changes no architectural state. The definition of a finished program is
the spec's decision D31. -/
def Obligations.FinishedProgramStaysPut : Prop :=
  ∀ s : State, s.finished → s.cycleNext →
    ∃ t : State, step s = .next t ∧ s.sameCore t ∧ t.finished

/-! ## Load, arithmetic, logic -/

/-- 41_load_alu.md R170, R172: 6xkk sets V[x] to kk and 8xy0 sets it to V[y], whatever it held,
and each advances; nothing else changes. -/
def Obligations.LoadsCopyTheirOperand : Prop :=
  ∀ (s : State) (x y : Reg) (kk : Byte),
    (∃ t, exec (.ldImm x kk) s = .next t ∧ wroteV s t x kk) ∧
    (∃ t, exec (.ldReg x y) s = .next t ∧ wroteV s t x (s.readV y))

/-- 41_load_alu.md R171: 7xkk adds kk to V[x] modulo 256; VF is not changed by the carry (unless it
is the destination), nor is anything else. -/
def Obligations.AddImmediateWrapsWithoutCarry : Prop :=
  ∀ (s : State) (x : Reg) (kk : Byte), ∃ t b, exec (.addImm x kk) s = .next t ∧ wroteV s t x b ∧
    b.toNat = ((s.readV x).toNat + kk.toNat) % 256

/-- 41_load_alu.md R173 to R175: OR, AND, XOR bit by bit into V[x]; VF is left unchanged unless x
is 15 (the spec's decision D29). -/
def Obligations.LogicWritesOnlyItsDestination : Prop :=
  ∀ (s : State) (x y : Reg),
    (∃ t b, exec (.orReg x y) s = .next t ∧ wroteV s t x b ∧
      ∀ k, b.getLsbD k = ((s.readV x).getLsbD k || (s.readV y).getLsbD k)) ∧
    (∃ t b, exec (.andReg x y) s = .next t ∧ wroteV s t x b ∧
      ∀ k, b.getLsbD k = ((s.readV x).getLsbD k && (s.readV y).getLsbD k)) ∧
    (∃ t b, exec (.xorReg x y) s = .next t ∧ wroteV s t x b ∧
      ∀ k, b.getLsbD k = ((s.readV x).getLsbD k ^^ (s.readV y).getLsbD k))

/-- 41_load_alu.md R176: 8xy4 leaves the low 8 bits of the sum in V[x] and the carry in VF; with
x = 15 the result is what VF keeps (the spec's decision D10). -/
def Obligations.AddSetsTheCarry : Prop :=
  ∀ (s : State) (x y : Reg), ∃ t, exec (.addReg x y) s = .next t ∧
    wroteFlagged s t x (((s.readV x).toNat + (s.readV y).toNat) % 256)
      ((s.readV x).toNat + (s.readV y).toNat > 255)

/-- 41_load_alu.md R177, R180: 8xy5 and 8xy7 leave the difference modulo 256 in V[x], and VF is 1
exactly when the minuend is strictly greater; with x = 15 the result is what VF keeps (the spec's
decision D10). -/
def Obligations.SubtractSetsStrictlyGreater : Prop :=
  ∀ (s : State) (x y : Reg),
    (∃ t, exec (.sub x y) s = .next t ∧
      wroteFlagged s t x (((s.readV x).toNat + 256 - (s.readV y).toNat) % 256)
        ((s.readV x).toNat > (s.readV y).toNat)) ∧
    (∃ t, exec (.subn x y) s = .next t ∧
      wroteFlagged s t x (((s.readV y).toNat + 256 - (s.readV x).toNat) % 256)
        ((s.readV y).toNat > (s.readV x).toNat))

/-- 41_load_alu.md R178, R181, R179: the shifts move V[x] by one bit and VF receives the bit shifted
out; V[y] plays no part. Shifting V[x] in place and the order of the two writes at x = 15 are the
spec's decisions D11 and D10. -/
def Obligations.ShiftsMoveOneBit : Prop :=
  ∀ (s : State) (x y : Reg),
    (∃ t, exec (.shr x y) s = .next t ∧
      wroteFlagged s t x ((s.readV x).toNat / 2) ((s.readV x).toNat % 2 = 1)) ∧
    (∃ t, exec (.shl x y) s = .next t ∧
      wroteFlagged s t x ((s.readV x).toNat * 2 % 256) (128 ≤ (s.readV x).toNat))

/-- 41_load_alu.md R182: Annn sets I to the zero-extended nnn and advances. -/
def Obligations.LoadIndexSetsI : Prop :=
  ∀ (s : State) (nnn : Addr12), ∃ t, exec (.ldI nnn) s = .next t ∧ t.i.toNat = nnn.toNat ∧
    advanced s t ∧ t = { s with i := t.i, pc := t.pc } ∧ sameMemory s t

/-- 41_load_alu.md R184, R185: Fx1E adds V[x] to I modulo 65536 and Fx29 sets I to V[x] * 5 with
V[x] not masked; neither writes VF. The widths and the missing mask are the spec's decisions D18 and
D16. -/
def Obligations.IndexAddAndGlyphAddress : Prop :=
  ∀ (s : State) (x : Reg),
    (∃ t, exec (.addI x) s = .next t ∧ t.i.toNat = (s.i.toNat + (s.readV x).toNat) % 65536 ∧
      advanced s t ∧ t = { s with i := t.i, pc := t.pc } ∧ sameMemory s t) ∧
    (∃ t, exec (.ldF x) s = .next t ∧ t.i.toNat = (s.readV x).toNat * 5 ∧
      advanced s t ∧ t = { s with i := t.i, pc := t.pc } ∧ sameMemory s t)

/-- 41_load_alu.md R183: Cxkk sets V[x] to some byte AND kk, the host's byte when it is written
down; when it is not, nothing more is said of it (the spec's decision D19; the counter of draws is
the model's own, log 2). -/
def Obligations.RandomIsMasked : Prop :=
  ∀ (s : State) (x : Reg) (kk : Byte), ∃ (t : State) (r : Byte), exec (.rnd x kk) s = .next t ∧
    (∀ b, s.env.rand = some b → r = b) ∧ t.readV x = r &&& kk ∧
    (∀ z, z ≠ x → t.readV z = s.readV z) ∧ advanced s t ∧
    t = { s with v := t.v, pc := t.pc, env := { s.env with draws := s.env.draws + 1 } } ∧
    sameMemory s t

/-! ## Display -/

/-- 42_display.md R200: 00E0 sets every pixel to 0 and REDRAW to 1, whatever the screen held; VF and
everything else stay. -/
def Obligations.ClearScreenForcesRedraw : Prop :=
  ∀ s : State, ∃ t, exec .cls s = .next t ∧ (∀ r c, t.pixel r c = false) ∧ t.redraw = true ∧
    advanced s t ∧ t = { s with fb := t.fb, redraw := true, pc := t.pc } ∧ sameMemory s t

/-- 42_display.md R201, R202: Dxyn toggles exactly the pixels a set sprite bit lands on, with wrap
on both axes; VF is 1 if one of them was on and 0 otherwise; REDRAW is set if there is such a pixel
and kept otherwise; every other register, memory and I stay. Holds for x or y = 15 (the
coordinates are read before VF is cleared) and for n = 0 with any I (the spec's decision D25). -/
def Obligations.DrawTogglesTheSprite : Prop :=
  ∀ (s : State) (x y : Reg) (n : Nat), (Instr.drw x y n).wf = true →
    (n = 0 ∨ s.i.toNat + n - 1 ≤ 0xFFF) →
    ∃ t, exec (.drw x y n) s = .next t ∧
      (∀ r c, (spriteCovers s x y n r c → t.pixel r c = !s.pixel r c) ∧
        (¬ spriteCovers s x y n r c → t.pixel r c = s.pixel r c)) ∧
      ((∃ r c, spriteCovers s x y n r c ∧ s.pixel r c = true) → t.readV VF = 1) ∧
      ((¬ ∃ r c, spriteCovers s x y n r c ∧ s.pixel r c = true) → t.readV VF = 0) ∧
      (t.redraw = true ↔ s.redraw = true ∨ ∃ r c, spriteCovers s x y n r c) ∧
      (∀ z, z ≠ VF → t.readV z = s.readV z) ∧ advanced s t ∧
      t = { s with v := t.v, fb := t.fb, redraw := t.redraw, pc := t.pc } ∧ sameMemory s t

/-- The draw idempotence the source states, quoted in 42_display.md R203: drawing the same sprite
at the same place twice restores the screen exactly, and VF is 1 after the second draw when the
sprite has a set bit and the screen was clear under it. The coordinates are the same when neither x
nor y is VF; R203's consequence is the spec's own derivation. -/
def Obligations.DrawingTwiceRestoresTheScreen : Prop :=
  ∀ (s : State) (x y : Reg) (n : Nat), (Instr.drw x y n).wf = true → x ≠ VF → y ≠ VF →
    (n = 0 ∨ s.i.toNat + n - 1 ≤ 0xFFF) →
    ∃ t u, exec (.drw x y n) s = .next t ∧ exec (.drw x y n) t = .next u ∧ u.fb = s.fb ∧
      ((∃ r c, spriteCovers s x y n r c) →
        (∀ r c, spriteCovers s x y n r c → s.pixel r c = false) → u.readV VF = 1)

/-- 41_load_alu.md R185 with 70_reset_and_hazards.md R312: after Boot, Fx29 with V[x] = d from 0 to
15 leaves I at the five font bytes of glyph d, for any FONT_TABLE. -/
def Obligations.GlyphAddressPointsAtTheGlyph : Prop :=
  ∀ (s t : State) (rom : List Byte) (x : Reg) (b : Byte), b.toNat < 16 →
    exec (.ldF x) ((s.boot rom).writeV x b) = .next t →
    ∀ k : Fin 5, t.memRead (t.effAddr k.val) = some (s.env.font[5 * b.toNat + k.val]?.getD 0) ∧
      5 * b.toNat + k.val < 80

/-! ## Keys and timers -/

/-- 43_keys_timers.md R220, R221: Ex9E skips when key V[x] is pressed, ExA1 when it is not; the key
is the low four bits of V[x] (R226, the spec's decision D17). -/
def Obligations.KeySkipsFollowTheLatch : Prop :=
  ∀ (s : State) (x : Reg),
    (∃ t, exec (.skp x) s = .next t ∧
      skippedIf s t (s.keys.getLsbD ((s.readV x).toNat % 16) = true)) ∧
    (∃ t, exec (.sknp x) s = .next t ∧
      skippedIf s t (s.keys.getLsbD ((s.readV x).toNat % 16) = false))

/-- 43_keys_timers.md R222: with no key pressed Fx0A changes nothing at all, PC included; otherwise
it stores the index of the lowest pressed key in V[x] and advances. A held key ends the wait at once
(the spec's decision D30). -/
def Obligations.WaitForKeyStoresTheLowest : Prop :=
  ∀ (s : State) (x : Reg),
    (s.keys = 0 → exec (.ldVxK x) s = .next s) ∧
    (s.keys ≠ 0 → ∃ (t : State) (k : Fin 16), exec (.ldVxK x) s = .next t ∧
      s.keys.getLsbD k.val = true ∧ (∀ j, j < k.val → s.keys.getLsbD j = false) ∧
      wroteV s t x (BitVec.ofNat 8 k.val))

/-- 43_keys_timers.md R223 to R225: Fx07 reads DT into V[x], Fx15 and Fx18 write V[x] to DT and to
ST. Which opcode moves which timer is R227, the spec's decision D13. -/
def Obligations.TimerMovesCopyTheByte : Prop :=
  ∀ (s : State) (x : Reg),
    (∃ t, exec (.ldVxDt x) s = .next t ∧ wroteV s t x s.dt) ∧
    (∃ t, exec (.ldDtVx x) s = .next t ∧ t.dt = s.readV x ∧ advanced s t ∧
      t = { s with dt := t.dt, pc := t.pc } ∧ sameMemory s t) ∧
    (∃ t, exec (.ldStVx x) s = .next t ∧ t.st = s.readV x ∧ advanced s t ∧
      t = { s with st := t.st, pc := t.pc } ∧ sameMemory s t)

/-! ## Memory instructions -/

/-- 44_memory_ops.md R240: with I at most 0xFFD, Fx33 stores the three decimal digits of V[x] at I,
I + 1, I + 2 and advances; no other byte, no register and not I changes. The digit order is the
spec's decision D14. -/
def Obligations.BcdStoresThreeDigits : Prop :=
  ∀ (s : State) (x : Reg), s.i.toNat ≤ 0xFFD →
    ∃ (t : State) (h d o : Byte), exec (.ldB x) s = .next t ∧
      t.memRead (s.effAddr 0) = some h ∧ t.memRead (s.effAddr 1) = some d ∧
      t.memRead (s.effAddr 2) = some o ∧
      h.toNat * 100 + d.toNat * 10 + o.toNat = (s.readV x).toNat ∧
      h.toNat ≤ 9 ∧ d.toNat ≤ 9 ∧ o.toNat ≤ 9 ∧ advanced s t ∧
      t = { s with mem := t.mem, pc := t.pc } ∧
      ∀ a, a < s.effAddr 0 ∨ s.effAddr 2 < a → t.memRead a = s.memRead a

/-- 44_memory_ops.md R241: with I + x at most 0xFFF, Fx55 stores V[0] to V[x] at I to I + x and
advances; no other byte, no register and not I changes (I: the spec's decision D15). -/
def Obligations.RegisterDumpStoresEachRegister : Prop :=
  ∀ (s : State) (x : Reg), s.i.toNat + x.toNat ≤ 0xFFF →
    ∃ t, exec (.stRegs x) s = .next t ∧
      (∀ z : Reg, z.toNat ≤ x.toNat → t.memRead (s.effAddr z.toNat) = some (s.readV z)) ∧
      advanced s t ∧ t = { s with mem := t.mem, pc := t.pc } ∧
      ∀ a, a < s.effAddr 0 ∨ s.effAddr x.toNat < a → t.memRead a = s.memRead a

/-- 44_memory_ops.md R242: with I + x at most 0xFFF, Fx65 loads V[0] to V[x] from I to I + x and
advances; registers above x, memory and I stay (I: the spec's decision D15). -/
def Obligations.RegisterLoadReadsEachRegister : Prop :=
  ∀ (s : State) (x : Reg), s.i.toNat + x.toNat ≤ 0xFFF →
    ∃ t, exec (.ldRegs x) s = .next t ∧
      (∀ z : Reg, z.toNat ≤ x.toNat → s.memRead (s.effAddr z.toNat) = some (t.readV z)) ∧
      (∀ z : Reg, x.toNat < z.toNat → t.readV z = s.readV z) ∧
      advanced s t ∧ t = { s with v := t.v, pc := t.pc } ∧ sameMemory s t

/-- 20_memory.md R85, R86: Fx33, Fx55, Fx65 and Dxyn that would reach beyond 0xFFF halt with
MEM_RANGE (FAULT = 3) and write nothing else, not even the part of the range inside memory. The
rules are the spec's decision D5. -/
def Obligations.OutOfRangeAccessWritesNothing : Prop :=
  ∀ (s : State) (x y : Reg) (n : Nat),
    (0xFFF < s.i.toNat + 2 → exec (.ldB x) s = .next { s with halted := true, fault := 3 }) ∧
    (0xFFF < s.i.toNat + x.toNat →
      exec (.stRegs x) s = .next { s with halted := true, fault := 3 } ∧
      exec (.ldRegs x) s = .next { s with halted := true, fault := 3 }) ∧
    (0 < n → 0xFFF < s.i.toNat + n - 1 →
      exec (.drw x y n) s = .next { s with halted := true, fault := 3 })

/-- 20_memory.md R96: a store is seen by the very next fetch, whichever instruction stores, wherever
its bytes fall, and whether the next Cycle is pending or none is. After an instruction that does not
fault, every address reads as the byte it stored there or else as before, and the next Cycle runs the
word of the two bytes at PC read so. The rule is the spec's own derivation; that the pending events
stand in the state is the model's convention (log 1). -/
def Obligations.StoreIsSeenByTheNextFetch : Prop :=
  ∀ (s : State) (i : Instr), s.halted = false → s.cycleNext → i.wf = true → s.sp.toNat ≤ 16 →
    s.fetch16 s.pc.toNat = some (encode i) → faultOf i s = none →
    ∃ t : State, step s = .next t ∧ t.halted = false ∧
      ((storedBytes i s) ≠ [] → advanced s t) ∧
      (∀ a : Nat, t.memRead a = byteAfter i s a) ∧
      ∀ hi lo : Byte, byteAfter i s t.pc.toNat = some hi → byteAfter i s (t.pc.toNat + 1) = some lo →
        (t.env.inputs = [] → step t = runWord (hi ++ lo) (t.accept none)) ∧
        (∀ (r : Byte) (es : List Event), t.env.inputs = .cycle r :: es →
          step t = runWord (hi ++ lo) ((t.withInputs es).accept (some r)))
end

