-- ==== Sys2Proof/Laws/State.lean ====
section
/-! SUPPORT. One lemma per field of State for each named update, so that no proof unfolds a record
update, and the same for the three reads of a state (a register, a byte, a pixel). -/

namespace Sys2Proof.Machine

/-! ## writeV -/

section writeV
variable (s : State) (x : Reg) (b : Byte)

@[simp] theorem State.writeV_v : (s.writeV x b).v = s.v.set x.toNat b := rfl
@[simp] theorem State.writeV_i : (s.writeV x b).i = s.i := rfl
@[simp] theorem State.writeV_pc : (s.writeV x b).pc = s.pc := rfl
@[simp] theorem State.writeV_sp : (s.writeV x b).sp = s.sp := rfl
@[simp] theorem State.writeV_stack : (s.writeV x b).stack = s.stack := rfl
@[simp] theorem State.writeV_mem : (s.writeV x b).mem = s.mem := rfl
@[simp] theorem State.writeV_dt : (s.writeV x b).dt = s.dt := rfl
@[simp] theorem State.writeV_st : (s.writeV x b).st = s.st := rfl
@[simp] theorem State.writeV_fb : (s.writeV x b).fb = s.fb := rfl
@[simp] theorem State.writeV_redraw : (s.writeV x b).redraw = s.redraw := rfl
@[simp] theorem State.writeV_keys : (s.writeV x b).keys = s.keys := rfl
@[simp] theorem State.writeV_halted : (s.writeV x b).halted = s.halted := rfl
@[simp] theorem State.writeV_fault : (s.writeV x b).fault = s.fault := rfl
@[simp] theorem State.writeV_env : (s.writeV x b).env = s.env := rfl

end writeV

/-! ## advance -/

section advance
variable (s : State) 

@[simp] theorem State.advance_v : (s.advance).v = s.v := rfl
@[simp] theorem State.advance_i : (s.advance).i = s.i := rfl
@[simp] theorem State.advance_pc : (s.advance).pc = s.pc + 2 := rfl
@[simp] theorem State.advance_sp : (s.advance).sp = s.sp := rfl
@[simp] theorem State.advance_stack : (s.advance).stack = s.stack := rfl
@[simp] theorem State.advance_mem : (s.advance).mem = s.mem := rfl
@[simp] theorem State.advance_dt : (s.advance).dt = s.dt := rfl
@[simp] theorem State.advance_st : (s.advance).st = s.st := rfl
@[simp] theorem State.advance_fb : (s.advance).fb = s.fb := rfl
@[simp] theorem State.advance_redraw : (s.advance).redraw = s.redraw := rfl
@[simp] theorem State.advance_keys : (s.advance).keys = s.keys := rfl
@[simp] theorem State.advance_halted : (s.advance).halted = s.halted := rfl
@[simp] theorem State.advance_fault : (s.advance).fault = s.fault := rfl
@[simp] theorem State.advance_env : (s.advance).env = s.env := rfl

end advance

/-! ## skipIf -/

section skipIf
variable (s : State) (c : Bool)

@[simp] theorem State.skipIf_v : (s.skipIf c).v = s.v := rfl
@[simp] theorem State.skipIf_i : (s.skipIf c).i = s.i := rfl
@[simp] theorem State.skipIf_pc : (s.skipIf c).pc = if c then s.pc + 2 + 2 else s.pc + 2 := rfl
@[simp] theorem State.skipIf_sp : (s.skipIf c).sp = s.sp := rfl
@[simp] theorem State.skipIf_stack : (s.skipIf c).stack = s.stack := rfl
@[simp] theorem State.skipIf_mem : (s.skipIf c).mem = s.mem := rfl
@[simp] theorem State.skipIf_dt : (s.skipIf c).dt = s.dt := rfl
@[simp] theorem State.skipIf_st : (s.skipIf c).st = s.st := rfl
@[simp] theorem State.skipIf_fb : (s.skipIf c).fb = s.fb := rfl
@[simp] theorem State.skipIf_redraw : (s.skipIf c).redraw = s.redraw := rfl
@[simp] theorem State.skipIf_keys : (s.skipIf c).keys = s.keys := rfl
@[simp] theorem State.skipIf_halted : (s.skipIf c).halted = s.halted := rfl
@[simp] theorem State.skipIf_fault : (s.skipIf c).fault = s.fault := rfl
@[simp] theorem State.skipIf_env : (s.skipIf c).env = s.env := rfl

end skipIf

/-! ## togglePixel -/

section togglePixel
variable (s : State) (r : Fin 32) (c : Fin 64)

@[simp] theorem State.togglePixel_v : (s.togglePixel r c).v = s.v := rfl
@[simp] theorem State.togglePixel_i : (s.togglePixel r c).i = s.i := rfl
@[simp] theorem State.togglePixel_pc : (s.togglePixel r c).pc = s.pc := rfl
@[simp] theorem State.togglePixel_sp : (s.togglePixel r c).sp = s.sp := rfl
@[simp] theorem State.togglePixel_stack : (s.togglePixel r c).stack = s.stack := rfl
@[simp] theorem State.togglePixel_mem : (s.togglePixel r c).mem = s.mem := rfl
@[simp] theorem State.togglePixel_dt : (s.togglePixel r c).dt = s.dt := rfl
@[simp] theorem State.togglePixel_st : (s.togglePixel r c).st = s.st := rfl
@[simp] theorem State.togglePixel_fb :
    (s.togglePixel r c).fb = s.fb.set r (s.fb[r] ^^^ (1#64 <<< c.val)) :=
    rfl
@[simp] theorem State.togglePixel_redraw : (s.togglePixel r c).redraw = s.redraw := rfl
@[simp] theorem State.togglePixel_keys : (s.togglePixel r c).keys = s.keys := rfl
@[simp] theorem State.togglePixel_halted : (s.togglePixel r c).halted = s.halted := rfl
@[simp] theorem State.togglePixel_fault : (s.togglePixel r c).fault = s.fault := rfl
@[simp] theorem State.togglePixel_env : (s.togglePixel r c).env = s.env := rfl

end togglePixel

/-! ## halt -/

section halt
variable (s : State) (c : FaultCode)

@[simp] theorem State.halt_v : (s.halt c).v = s.v := rfl
@[simp] theorem State.halt_i : (s.halt c).i = s.i := rfl
@[simp] theorem State.halt_pc : (s.halt c).pc = s.pc := rfl
@[simp] theorem State.halt_sp : (s.halt c).sp = s.sp := rfl
@[simp] theorem State.halt_stack : (s.halt c).stack = s.stack := rfl
@[simp] theorem State.halt_mem : (s.halt c).mem = s.mem := rfl
@[simp] theorem State.halt_dt : (s.halt c).dt = s.dt := rfl
@[simp] theorem State.halt_st : (s.halt c).st = s.st := rfl
@[simp] theorem State.halt_fb : (s.halt c).fb = s.fb := rfl
@[simp] theorem State.halt_redraw : (s.halt c).redraw = s.redraw := rfl
@[simp] theorem State.halt_keys : (s.halt c).keys = s.keys := rfl
@[simp] theorem State.halt_halted : (s.halt c).halted = true := rfl
@[simp] theorem State.halt_fault : (s.halt c).fault = c.code := rfl
@[simp] theorem State.halt_env : (s.halt c).env = s.env := rfl

end halt

/-! ## emit -/

section emit
variable (s : State) (o : Option Output)

@[simp] theorem State.emit_v : (s.emit o).v = s.v := rfl
@[simp] theorem State.emit_i : (s.emit o).i = s.i := rfl
@[simp] theorem State.emit_pc : (s.emit o).pc = s.pc := rfl
@[simp] theorem State.emit_sp : (s.emit o).sp = s.sp := rfl
@[simp] theorem State.emit_stack : (s.emit o).stack = s.stack := rfl
@[simp] theorem State.emit_mem : (s.emit o).mem = s.mem := rfl
@[simp] theorem State.emit_dt : (s.emit o).dt = s.dt := rfl
@[simp] theorem State.emit_st : (s.emit o).st = s.st := rfl
@[simp] theorem State.emit_fb : (s.emit o).fb = s.fb := rfl
@[simp] theorem State.emit_redraw : (s.emit o).redraw = s.redraw := rfl
@[simp] theorem State.emit_keys : (s.emit o).keys = s.keys := rfl
@[simp] theorem State.emit_halted : (s.emit o).halted = s.halted := rfl
@[simp] theorem State.emit_fault : (s.emit o).fault = s.fault := rfl
@[simp] theorem State.emit_env : (s.emit o).env = { s.env with out := o } := rfl

end emit

/-! ## withInputs -/

section withInputs
variable (s : State) (es : List Event)

@[simp] theorem State.withInputs_v : (s.withInputs es).v = s.v := rfl
@[simp] theorem State.withInputs_i : (s.withInputs es).i = s.i := rfl
@[simp] theorem State.withInputs_pc : (s.withInputs es).pc = s.pc := rfl
@[simp] theorem State.withInputs_sp : (s.withInputs es).sp = s.sp := rfl
@[simp] theorem State.withInputs_stack : (s.withInputs es).stack = s.stack := rfl
@[simp] theorem State.withInputs_mem : (s.withInputs es).mem = s.mem := rfl
@[simp] theorem State.withInputs_dt : (s.withInputs es).dt = s.dt := rfl
@[simp] theorem State.withInputs_st : (s.withInputs es).st = s.st := rfl
@[simp] theorem State.withInputs_fb : (s.withInputs es).fb = s.fb := rfl
@[simp] theorem State.withInputs_redraw : (s.withInputs es).redraw = s.redraw := rfl
@[simp] theorem State.withInputs_keys : (s.withInputs es).keys = s.keys := rfl
@[simp] theorem State.withInputs_halted : (s.withInputs es).halted = s.halted := rfl
@[simp] theorem State.withInputs_fault : (s.withInputs es).fault = s.fault := rfl
@[simp] theorem State.withInputs_env : (s.withInputs es).env = { s.env with inputs := es } := rfl

end withInputs

/-! ## accept -/

section accept
variable (s : State) (r : Option Byte)

@[simp] theorem State.accept_v : (s.accept r).v = s.v := rfl
@[simp] theorem State.accept_i : (s.accept r).i = s.i := rfl
@[simp] theorem State.accept_pc : (s.accept r).pc = s.pc := rfl
@[simp] theorem State.accept_sp : (s.accept r).sp = s.sp := rfl
@[simp] theorem State.accept_stack : (s.accept r).stack = s.stack := rfl
@[simp] theorem State.accept_mem : (s.accept r).mem = s.mem := rfl
@[simp] theorem State.accept_dt : (s.accept r).dt = s.dt := rfl
@[simp] theorem State.accept_st : (s.accept r).st = s.st := rfl
@[simp] theorem State.accept_fb : (s.accept r).fb = s.fb := rfl
@[simp] theorem State.accept_redraw : (s.accept r).redraw = s.redraw := rfl
@[simp] theorem State.accept_keys : (s.accept r).keys = s.keys := rfl
@[simp] theorem State.accept_halted : (s.accept r).halted = s.halted := rfl
@[simp] theorem State.accept_fault : (s.accept r).fault = s.fault := rfl
@[simp] theorem State.accept_env : (s.accept r).env = { s.env with rand := r, out := none } := rfl

end accept

/-! ## drew -/

section drew
variable (s : State) 

@[simp] theorem State.drew_v : (s.drew).v = s.v := rfl
@[simp] theorem State.drew_i : (s.drew).i = s.i := rfl
@[simp] theorem State.drew_pc : (s.drew).pc = s.pc := rfl
@[simp] theorem State.drew_sp : (s.drew).sp = s.sp := rfl
@[simp] theorem State.drew_stack : (s.drew).stack = s.stack := rfl
@[simp] theorem State.drew_mem : (s.drew).mem = s.mem := rfl
@[simp] theorem State.drew_dt : (s.drew).dt = s.dt := rfl
@[simp] theorem State.drew_st : (s.drew).st = s.st := rfl
@[simp] theorem State.drew_fb : (s.drew).fb = s.fb := rfl
@[simp] theorem State.drew_redraw : (s.drew).redraw = s.redraw := rfl
@[simp] theorem State.drew_keys : (s.drew).keys = s.keys := rfl
@[simp] theorem State.drew_halted : (s.drew).halted = s.halted := rfl
@[simp] theorem State.drew_fault : (s.drew).fault = s.fault := rfl
@[simp] theorem State.drew_env : (s.drew).env = { s.env with draws := s.env.draws + 1 } := rfl

end drew

/-! ## Reads -/

/-- A register read depends on the registers alone. -/
theorem State.readV_congr {s t : State} (h : t.v = s.v) (x : Reg) : t.readV x = s.readV x := by
  simp [State.readV, h]

/-- A byte read depends on the memory and the font alone. -/
theorem State.memRead_congr {s t : State} (hm : t.mem = s.mem) (hf : t.env.font = s.env.font)
    (a : Nat) : t.memRead a = s.memRead a := by simp [State.memRead, hm, hf]

/-- A pixel read depends on the screen alone. -/
theorem State.pixel_congr {s t : State} (h : t.fb = s.fb) (r : Fin 32) (c : Fin 64) :
    t.pixel r c = s.pixel r c := by simp [State.pixel, h]

/-- A fetch depends on the memory and the font alone. -/
theorem State.fetch16_congr {s t : State} (hm : t.mem = s.mem) (hf : t.env.font = s.env.font)
    (a : Nat) : t.fetch16 a = s.fetch16 a := by
  simp [State.fetch16, State.memRead_congr hm hf]

@[simp] theorem State.readV_writeV_same (s : State) (x : Reg) (b : Byte) :
    (s.writeV x b).readV x = b := by simp [State.readV]

theorem State.readV_writeV_other (s : State) {x z : Reg} (b : Byte) (h : z ≠ x) :
    (s.writeV x b).readV z = s.readV z := by
  have : x.toNat ≠ z.toNat := fun e => h (BitVec.eq_of_toNat_eq e.symm)
  simp [State.readV, Vector.getElem_set_ne _ _ this]

theorem State.readV_writeV (s : State) (x z : Reg) (b : Byte) :
    (s.writeV x b).readV z = if z = x then b else s.readV z := by
  split
  · next h => subst h; simp
  · next h => exact s.readV_writeV_other b h

@[simp] theorem State.memRead_writeV (s : State) (x : Reg) (b : Byte) (a : Nat) :
    (s.writeV x b).memRead a = s.memRead a := rfl

@[simp] theorem State.pixel_writeV (s : State) (x : Reg) (b : Byte) (r : Fin 32) (c : Fin 64) :
    (s.writeV x b).pixel r c = s.pixel r c := rfl

@[simp] theorem State.readV_advance (s : State) (z : Reg) :
    (s.advance).readV z = s.readV z := rfl

@[simp] theorem State.memRead_advance (s : State) (a : Nat) :
    (s.advance).memRead a = s.memRead a := rfl

@[simp] theorem State.pixel_advance (s : State) (r : Fin 32) (c : Fin 64) :
    (s.advance).pixel r c = s.pixel r c := rfl

@[simp] theorem State.readV_skipIf (s : State) (c : Bool) (z : Reg) :
    (s.skipIf c).readV z = s.readV z := rfl

@[simp] theorem State.memRead_skipIf (s : State) (c : Bool) (a : Nat) :
    (s.skipIf c).memRead a = s.memRead a := rfl

@[simp] theorem State.pixel_skipIf (s : State) (k : Bool) (r : Fin 32) (c : Fin 64) :
    (s.skipIf k).pixel r c = s.pixel r c := rfl

@[simp] theorem State.readV_togglePixel (s : State) (r : Fin 32) (c : Fin 64) (z : Reg) :
    (s.togglePixel r c).readV z = s.readV z := rfl

@[simp] theorem State.memRead_togglePixel (s : State) (r : Fin 32) (c : Fin 64) (a : Nat) :
    (s.togglePixel r c).memRead a = s.memRead a := rfl

@[simp] theorem State.readV_halt (s : State) (c : FaultCode) (z : Reg) :
    (s.halt c).readV z = s.readV z := rfl

@[simp] theorem State.memRead_halt (s : State) (c : FaultCode) (a : Nat) :
    (s.halt c).memRead a = s.memRead a := rfl

@[simp] theorem State.pixel_halt (s : State) (k : FaultCode) (r : Fin 32) (c : Fin 64) :
    (s.halt k).pixel r c = s.pixel r c := rfl

@[simp] theorem State.readV_emit (s : State) (o : Option Output) (z : Reg) :
    (s.emit o).readV z = s.readV z := rfl

@[simp] theorem State.memRead_emit (s : State) (o : Option Output) (a : Nat) :
    (s.emit o).memRead a = s.memRead a := rfl

@[simp] theorem State.pixel_emit (s : State) (o : Option Output) (r : Fin 32) (c : Fin 64) :
    (s.emit o).pixel r c = s.pixel r c := rfl

@[simp] theorem State.readV_withInputs (s : State) (es : List Event) (z : Reg) :
    (s.withInputs es).readV z = s.readV z := rfl

@[simp] theorem State.memRead_withInputs (s : State) (es : List Event) (a : Nat) :
    (s.withInputs es).memRead a = s.memRead a := rfl

@[simp] theorem State.pixel_withInputs (s : State) (es : List Event) (r : Fin 32) (c : Fin 64) :
    (s.withInputs es).pixel r c = s.pixel r c := rfl

@[simp] theorem State.readV_accept (s : State) (r : Option Byte) (z : Reg) :
    (s.accept r).readV z = s.readV z := rfl

@[simp] theorem State.memRead_accept (s : State) (r : Option Byte) (a : Nat) :
    (s.accept r).memRead a = s.memRead a := rfl

@[simp] theorem State.pixel_accept (s : State) (k : Option Byte) (r : Fin 32) (c : Fin 64) :
    (s.accept k).pixel r c = s.pixel r c := rfl

@[simp] theorem State.readV_drew (s : State) (z : Reg) :
    (s.drew).readV z = s.readV z := rfl

@[simp] theorem State.memRead_drew (s : State) (a : Nat) :
    (s.drew).memRead a = s.memRead a := rfl

@[simp] theorem State.pixel_drew (s : State) (r : Fin 32) (c : Fin 64) :
    (s.drew).pixel r c = s.pixel r c := rfl

end Sys2Proof.Machine
end

