-- ==== Sys2Proof/Laws/Memory.lean ====
section
/-! SUPPORT. Memory: a read after a write, and the canonical form that every operation keeps. -/

namespace Sys2Proof.Machine

/-! ## Cell lists -/

theorem Mem.read_erase_same (f : Vector Byte 80) (a : Nat) (l : List Host.Cell) :
    Mem.read f (Mem.erase a l) a = background f a := by
  induction l with
  | nil => rfl
  | cons c l ih =>
    obtain ⟨b, w⟩ := c
    by_cases h : b = a
    · simp [Mem.erase, h, ih]
    · simp [Mem.erase, h, Mem.read, ih]

theorem Mem.read_erase_other (f : Vector Byte 80) {a b : Nat} (h : b ≠ a) (l : List Host.Cell) :
    Mem.read f (Mem.erase a l) b = Mem.read f l b := by
  induction l with
  | nil => rfl
  | cons c l ih =>
    obtain ⟨d, w⟩ := c
    by_cases hd : d = a
    · subst hd; simp [Mem.erase, Mem.read, ih, Ne.symm h]
    · simp [Mem.erase, hd, Mem.read, ih]

theorem Mem.read_insert_other (f : Vector Byte 80) {a b : Nat} (h : b ≠ a) (w : Byte)
    (l : List Host.Cell) : Mem.read f (Mem.insert a w l) b = Mem.read f l b := by
  induction l with
  | nil => simp [Mem.insert, Mem.read, Ne.symm h]
  | cons c l ih =>
    obtain ⟨d, u⟩ := c
    by_cases hd : a < d
    · simp [Mem.insert, hd, Mem.read, Ne.symm h]
    · simp [Mem.insert, hd, Mem.read, ih]

theorem Mem.read_insert_erase (f : Vector Byte 80) (a : Nat) (w : Byte) (l : List Host.Cell) :
    Mem.read f (Mem.insert a w (Mem.erase a l)) a = w := by
  induction l with
  | nil => simp [Mem.erase, Mem.insert, Mem.read]
  | cons c l ih =>
    obtain ⟨d, u⟩ := c
    by_cases hd : d = a
    · simp [Mem.erase, hd, ih]
    · by_cases ha : a < d
      · simp [Mem.erase, hd, Mem.insert, ha, Mem.read]
      · simp [Mem.erase, hd, Mem.insert, ha, Mem.read, ih]

/-- A byte written reads back. -/
@[simp] theorem Mem.read_write_same (f : Vector Byte 80) (a : Nat) (w : Byte)
    (l : List Host.Cell) : Mem.read f (Mem.write f a w l) a = w := by
  unfold Mem.write
  split
  · next h => rw [Mem.read_erase_same, h]
  · exact Mem.read_insert_erase f a w l

/-- A write leaves every other byte alone. -/
theorem Mem.read_write_other (f : Vector Byte 80) {a b : Nat} (h : b ≠ a) (w : Byte)
    (l : List Host.Cell) : Mem.read f (Mem.write f a w l) b = Mem.read f l b := by
  unfold Mem.write
  split
  · exact Mem.read_erase_other f h l
  · rw [Mem.read_insert_other f h, Mem.read_erase_other f h]

/-! ## The canonical form -/

/-- The bound below a canonical list, said as a proposition. -/
theorem Mem.wfAbove_cons (f : Vector Byte 80) (lo : Option Nat) (a : Nat) (w : Byte)
    (l : List Host.Cell) : Mem.wfAbove f lo ((a, w) :: l) = true ↔
      (∀ b, lo = some b → b < a) ∧ a < Config.memSize ∧ w ≠ background f a ∧
        Mem.wfAbove f (some a) l = true := by
  cases lo <;> simp [Mem.wfAbove, and_assoc]

/-- A canonical list stays canonical under a lower bound. -/
theorem Mem.wfAbove_mono (f : Vector Byte 80) {lo lo' : Option Nat} {l : List Host.Cell}
    (h : Mem.wfAbove f lo l = true) (hlo : ∀ b, lo' = some b → ∃ c, lo = some c ∧ b ≤ c) :
    Mem.wfAbove f lo' l = true := by
  cases l with
  | nil => rfl
  | cons c l =>
    obtain ⟨a, w⟩ := c
    rw [Mem.wfAbove_cons] at h ⊢
    refine ⟨fun b hb => ?_, h.2⟩
    obtain ⟨c, hc, hbc⟩ := hlo b hb
    exact lt_of_le_of_lt hbc (h.1 c hc)

theorem Mem.wfAbove_erase (f : Vector Byte 80) (a : Nat) {lo : Option Nat} {l : List Host.Cell}
    (h : Mem.wfAbove f lo l = true) : Mem.wfAbove f lo (Mem.erase a l) = true := by
  induction l generalizing lo with
  | nil => rfl
  | cons c l ih =>
    obtain ⟨d, u⟩ := c
    rw [Mem.wfAbove_cons] at h
    by_cases hd : d = a
    · simp only [Mem.erase, hd, if_true]
      exact ih (Mem.wfAbove_mono f h.2.2.2 (fun b hb => ⟨d, rfl, (h.1 b hb).le⟩))
    · simp only [Mem.erase, hd, if_false]
      exact (Mem.wfAbove_cons f lo d u _).2 ⟨h.1, h.2.1, h.2.2.1, ih h.2.2.2⟩

theorem Mem.not_mem_erase (a : Nat) (l : List Host.Cell) : ∀ c ∈ Mem.erase a l, c.1 ≠ a := by
  induction l with
  | nil => simp [Mem.erase]
  | cons c l ih =>
    obtain ⟨d, u⟩ := c
    by_cases hd : d = a
    · simpa [Mem.erase, hd] using ih
    · simp only [Mem.erase, hd, if_false, List.mem_cons]
      rintro c (rfl | hc)
      · exact hd
      · exact ih c hc

theorem Mem.wfAbove_insert (f : Vector Byte 80) {a : Nat} {w : Byte} (ha : a < Config.memSize)
    (hw : w ≠ background f a) {lo : Option Nat} (hlo : ∀ b, lo = some b → b < a)
    {l : List Host.Cell} (h : Mem.wfAbove f lo l = true) (hn : ∀ c ∈ l, c.1 ≠ a) :
    Mem.wfAbove f lo (Mem.insert a w l) = true := by
  induction l generalizing lo with
  | nil => exact (Mem.wfAbove_cons f lo a w []).2 ⟨hlo, ha, hw, rfl⟩
  | cons c l ih =>
    obtain ⟨d, u⟩ := c
    have h' := (Mem.wfAbove_cons f lo d u l).1 h
    by_cases had : a < d
    · simp only [Mem.insert, had, if_true]
      refine (Mem.wfAbove_cons f lo a w _).2 ⟨hlo, ha, hw, ?_⟩
      exact (Mem.wfAbove_cons f _ d u l).2 ⟨by simpa using had, h'.2⟩
    · simp only [Mem.insert, had, if_false]
      have hda : d ≠ a := hn (d, u) (by simp)
      refine (Mem.wfAbove_cons f lo d u _).2 ⟨h'.1, h'.2.1, h'.2.2.1, ?_⟩
      exact ih (by intro b hb; cases hb; omega) h'.2.2.2 (fun c hc => hn c (by simp [hc]))

/-- Writing a byte inside MEM keeps the canonical form. -/
theorem Memory.wf_write (f : Vector Byte 80) {a : Nat} (ha : a < Config.memSize) (w : Byte)
    {l : List Host.Cell} (h : Memory.wf f l = true) : Memory.wf f (Mem.write f a w l) = true := by
  unfold Mem.write
  split
  · exact Mem.wfAbove_erase f a h
  · next hw =>
    exact Mem.wfAbove_insert f ha hw (by simp) (Mem.wfAbove_erase f a h) (Mem.not_mem_erase a l)

/-- The empty memory, every byte as Boot of the empty ROM leaves it, is canonical. -/
@[simp] theorem Memory.wf_nil (f : Vector Byte 80) : Memory.wf f [] = true := rfl

/-- The cells of a byte sequence inside MEM are in canonical form. -/
theorem Mem.wfAbove_cellsFrom (f : Vector Byte 80) (lo : Option Nat) (a : Nat) (ws : List Byte)
    (hlo : ∀ b, lo = some b → b < a) (hw : a + ws.length ≤ Config.memSize) :
    Mem.wfAbove f lo (Mem.cellsFrom f a ws) = true := by
  induction ws generalizing lo a with
  | nil => rfl
  | cons w ws ih =>
    simp only [List.length_cons] at hw
    simp only [Mem.cellsFrom]
    split
    · exact ih lo (a + 1) (fun b hb => by have := hlo b hb; omega) (by omega)
    · next h =>
      exact (Mem.wfAbove_cons f lo a w _).2
        ⟨hlo, by omega, h, ih (some a) (a + 1) (by simp) (by omega)⟩

/-- The cells of a byte sequence read as the sequence where it lies, as the background elsewhere. -/
theorem Mem.read_cellsFrom (f : Vector Byte 80) (a b : Nat) (ws : List Byte) :
    Mem.read f (Mem.cellsFrom f a ws) b =
      if a ≤ b ∧ b < a + ws.length then ws[b - a]?.getD 0 else background f b := by
  induction ws generalizing a with
  | nil => simp [Mem.cellsFrom, Mem.read]
  | cons w ws ih =>
    have hread : Mem.read f (Mem.cellsFrom f a (w :: ws)) b =
        if a = b then w else Mem.read f (Mem.cellsFrom f (a + 1) ws) b := by
      simp only [Mem.cellsFrom]
      split
      · next h =>
        split
        · next hab =>
          subst hab
          rw [ih, if_neg (by omega), h]
        · rfl
      · rfl
    rw [hread, ih]
    by_cases hab : a = b
    · subst hab; simp
    · rw [if_neg hab]
      by_cases h : a + 1 ≤ b ∧ b < a + 1 + ws.length
      · rw [if_pos h, if_pos (by simp only [List.length_cons]; omega)]
        have : b - a = (b - (a + 1)) + 1 := by omega
        rw [this, List.getElem?_cons_succ]
      · rw [if_neg h, if_neg (by simp only [List.length_cons]; omega)]

/-! ## Bytes of a state -/

/-- A byte read fails exactly at an address above 0xFFF (00_scope.md R7). -/
@[simp] theorem State.memRead_eq_none (s : State) (a : Nat) :
    s.memRead a = none ↔ 4096 ≤ a := by
  unfold State.memRead Config.memSize
  split
  · next h => simp only [reduceCtorEq, false_iff]; omega
  · next h => simp only [true_iff]; omega

/-- What a byte write does: in range it succeeds, changes only the memory, and the byte reads back. -/
theorem State.memWrite_spec (s : State) {a : Nat} (ha : a < 4096) (w : Byte) :
    ∃ t, s.memWrite a w = some t ∧ t = { s with mem := t.mem } ∧ t.memRead a = some w ∧
      (∀ b, b ≠ a → t.memRead b = s.memRead b) ∧
      (Memory.wf s.env.font s.mem = true → Memory.wf t.env.font t.mem = true) := by
  refine ⟨{ s with mem := Mem.write s.env.font a w s.mem }, ?_, rfl, ?_, ?_, ?_⟩
  · simp [State.memWrite, Config.memSize, ha]
  · simp [State.memRead, Config.memSize, ha]
  · intro b hb
    simp [State.memRead, Mem.read_write_other _ hb]
  · exact Memory.wf_write s.env.font ha w

/-- A byte write out of range fails. -/
theorem State.memWrite_none (s : State) {a : Nat} (ha : 4096 ≤ a) (w : Byte) :
    s.memWrite a w = none := by
  simp [State.memWrite, Config.memSize, Nat.not_lt.2 ha]

/-- Reading n bytes fails exactly when n > 0 and the last of them is above 0xFFF (20_memory.md
R86). -/
theorem State.readBytes_eq_none (s : State) (a n : Nat) :
    s.readBytes a n = none ↔ 0 < n ∧ 0xFFF < a + n - 1 := by
  induction n generalizing a with
  | zero => simp [State.readBytes]
  | succ n ih =>
    have hm := s.memRead_eq_none a
    have hb := ih (a + 1)
    unfold State.readBytes
    cases h1 : s.memRead a with
    | none => rw [h1] at hm; simp only [true_iff] at hm ⊢; omega
    | some b =>
      rw [h1] at hm
      cases h2 : s.readBytes (a + 1) n with
      | none => rw [h2] at hb; simp only [true_iff] at hb ⊢; omega
      | some bs =>
        rw [h2] at hb
        simp only [reduceCtorEq, false_iff] at hm hb ⊢
        omega

/-- What reading n bytes answers: n bytes, the k-th the byte at a + k. -/
theorem State.readBytes_some (s : State) {a n : Nat} {bs : List Byte}
    (h : s.readBytes a n = some bs) :
    bs.length = n ∧ ∀ k, k < n → s.memRead (a + k) = bs[k]? := by
  induction n generalizing a bs with
  | zero => simp only [State.readBytes, Option.some.injEq] at h; subst h; simp
  | succ n ih =>
    unfold State.readBytes at h
    cases h1 : s.memRead a with
    | none => simp [h1] at h
    | some b =>
      cases h2 : s.readBytes (a + 1) n with
      | none => simp [h1, h2] at h
      | some cs =>
        simp only [h1, h2, Option.some.injEq] at h
        subst h
        obtain ⟨hl, hk⟩ := ih h2
        refine ⟨by simp [hl], fun k hkn => ?_⟩
        cases k with
        | zero => simpa using h1
        | succ k =>
          have := hk k (by omega)
          rw [List.getElem?_cons_succ, ← this]
          congr 1; omega

/-- Everything a write of several bytes does: it fails exactly when there is a byte to write and the
last lies above 0xFFF; where it succeeds only the memory changes, the k-th byte reads back at a + k,
every address outside the range reads as before, and the canonical form is kept. -/
theorem State.writeBytes_spec (s : State) (a : Nat) (bs : List Byte) :
    (s.writeBytes a bs = none ↔ 0 < bs.length ∧ 0xFFF < a + bs.length - 1) ∧
    ∀ t, s.writeBytes a bs = some t →
      t = { s with mem := t.mem } ∧ (∀ k, k < bs.length → t.memRead (a + k) = bs[k]?) ∧
      (∀ b, b < a ∨ a + bs.length ≤ b → t.memRead b = s.memRead b) ∧
      (Memory.wf s.env.font s.mem = true → Memory.wf t.env.font t.mem = true) := by
  induction bs generalizing s a with
  | nil => simp [State.writeBytes]
  | cons w ws ih =>
    unfold State.writeBytes
    by_cases ha : a < 4096
    · obtain ⟨t, ht, hframe, hself, hother, hwf⟩ := s.memWrite_spec ha w
      rw [ht]
      obtain ⟨hnone, hsome⟩ := ih t (a + 1)
      refine ⟨by simp only [hnone, List.length_cons]; omega, fun u hu => ?_⟩
      obtain ⟨uframe, uread, uother, uwf⟩ := hsome u hu
      refine ⟨by rw [uframe, hframe], fun k hk => ?_, fun b hb => ?_, fun h => uwf (hwf h)⟩
      · cases k with
        | zero =>
          rw [Nat.add_zero, uother a (by omega), hself]; simp
        | succ k =>
          rw [List.getElem?_cons_succ, ← uread k (by simpa using hk)]
          congr 1; omega
      · simp only [List.length_cons] at hb
        rw [uother b (by omega), hother b (by omega)]
    · rw [s.memWrite_none (by omega)]
      refine ⟨?_, by simp⟩
      simp only [List.length_cons, true_iff]
      omega

/-- A fetch fails exactly when the address is above 0xFFE (20_memory.md R84). -/
theorem State.fetch16_eq_none (s : State) (a : Nat) : s.fetch16 a = none ↔ 0xFFE < a := by
  have h1 := s.memRead_eq_none a
  have h2 := s.memRead_eq_none (a + 1)
  unfold State.fetch16
  cases e1 : s.memRead a <;> cases e2 : s.memRead (a + 1) <;> rw [e1] at h1 <;> rw [e2] at h2 <;>
    simp only [reduceCtorEq, false_iff, true_iff] at h1 h2 ⊢ <;> omega

end Sys2Proof.Machine
end

