-- ==== Sys2Proof/Laws/Draw.lean ====
section
/-! SUPPORT. The sprite blit: what plotting a set bit does, and that drawing the rows of a sprite is
plotting a list of pixels that are all different (42_display.md R201 to R203). -/

namespace Sys2Proof.Machine

/-- Toggling a pixel flips it and leaves every other pixel alone. -/
theorem State.pixel_togglePixel (s : State) (r r' : Fin 32) (c c' : Fin 64) :
    (s.togglePixel r c).pixel r' c' = (s.pixel r' c' ^^ decide (r' = r ∧ c' = c)) := by
  unfold State.pixel
  simp only [State.togglePixel_fb]
  by_cases hr : r' = r
  · subst hr
    have : (s.fb.set r' (s.fb[r'] ^^^ 1#64 <<< c.val))[r'] = s.fb[r'] ^^^ 1#64 <<< c.val := by
      simp
    rw [this, BitVec.getLsbD_xor]
    congr 1
    have h64 := c'.isLt
    by_cases hc : c' = c
    · subst hc; simp
    · have hne : c'.val ≠ c.val := fun h => hc (Fin.ext h)
      simp only [BitVec.getLsbD_shiftLeft, h64, hc, and_false, decide_false, decide_true,
        Bool.true_and, Bool.and_eq_false_imp, Bool.not_eq_true', decide_eq_false_iff_not]
      intro hlt
      rw [BitVec.getLsbD_one]
      simp only [Bool.and_eq_false_imp, decide_eq_true_eq, decide_eq_false_iff_not]
      omega
  · have hne : r.val ≠ r'.val := fun h => hr (Fin.ext h.symm)
    have : (s.fb.set r (s.fb[r] ^^^ 1#64 <<< c.val))[r'] = s.fb[r'] := by
      simp [Vector.getElem_set_ne _ _ hne]
    rw [this]
    simp [hr]

/-- Everything `plot` does. -/
theorem State.plot_spec (s : State) (r : Fin 32) (c : Fin 64) :
    s.plot r c = { s with v := (s.plot r c).v, fb := (s.plot r c).fb, redraw := true } ∧
    (∀ r' c', (s.plot r c).pixel r' c' = (s.pixel r' c' ^^ decide (r' = r ∧ c' = c))) ∧
    (s.plot r c).readV VF = (if s.pixel r c then 1 else s.readV VF) ∧
    (∀ z, z ≠ VF → (s.plot r c).readV z = s.readV z) := by
  have hp : ∀ r' c', (s.plot r c).pixel r' c' = (s.pixel r' c' ^^ decide (r' = r ∧ c' = c)) := by
    intro r' c'
    have := s.pixel_togglePixel r r' c c'
    unfold State.plot
    by_cases h : s.pixel r c = true <;> simp only [h, if_true, if_false, Bool.false_eq_true]
    · have h2 := (s.writeV VF 1).pixel_togglePixel r r' c c'
      exact h2
    · exact this
  refine ⟨?_, hp, ?_, fun z hz => ?_⟩
  · unfold State.plot
    by_cases h : s.pixel r c = true <;> simp only [h, if_true, if_false, Bool.false_eq_true] <;> rfl
  · unfold State.plot
    by_cases h : s.pixel r c = true <;> simp only [h, if_true, if_false, Bool.false_eq_true]
    · exact (State.readV_congr (s := s.writeV VF 1) rfl VF).trans (by simp)
    · exact State.readV_congr (s := s) rfl VF
  · unfold State.plot
    by_cases h : s.pixel r c = true <;> simp only [h, if_true, if_false, Bool.false_eq_true]
    · exact (State.readV_congr (s := s.writeV VF 1) rfl z).trans (s.readV_writeV_other 1 hz)
    · exact State.readV_congr (s := s) rfl z

/-- Plot a list of pixels in order. -/
def State.plotAll (s : State) : List (Fin 32 × Fin 64) → State
  | [] => s
  | p :: ps => State.plotAll (s.plot p.1 p.2) ps

theorem State.plotAll_append (s : State) (ps qs : List (Fin 32 × Fin 64)) :
    s.plotAll (ps ++ qs) = (s.plotAll ps).plotAll qs := by
  induction ps generalizing s with
  | nil => rfl
  | cons p ps ih => simp [State.plotAll, ih]

/-- Plotting any list of pixels changes only VF, the screen and REDRAW, and never clears REDRAW. -/
theorem State.plotAll_frame (s : State) (ps : List (Fin 32 × Fin 64)) :
    s.plotAll ps = { s with v := (s.plotAll ps).v, fb := (s.plotAll ps).fb,
                            redraw := (s.plotAll ps).redraw } ∧
    ((s.plotAll ps).redraw = true ↔ s.redraw = true ∨ ps ≠ []) ∧
    (∀ z, z ≠ VF → (s.plotAll ps).readV z = s.readV z) := by
  induction ps generalizing s with
  | nil => simp [State.plotAll]
  | cons p ps ih =>
    obtain ⟨pf, -, -, pz⟩ := s.plot_spec p.1 p.2
    obtain ⟨hf, hred, hz⟩ := ih (s.plot p.1 p.2)
    refine ⟨by rw [State.plotAll, hf, pf], ?_, fun z hne => ?_⟩
    · have hpr : (s.plot p.1 p.2).redraw = true := by rw [pf]
      simp only [State.plotAll, hred, hpr, true_or, true_iff]
      exact Or.inr (by simp)
    · rw [State.plotAll, hz z hne, pz z hne]

/-- Everything plotting a list of different pixels does to the screen and to VF, beside its frame:
each is toggled once, and VF is 1 if one of them was on. -/
theorem State.plotAll_spec (s : State) {ps : List (Fin 32 × Fin 64)} (hps : ps.Nodup) :
    (∀ r c, (s.plotAll ps).pixel r c = (s.pixel r c ^^ decide ((r, c) ∈ ps))) ∧
    ((∃ p ∈ ps, s.pixel p.1 p.2 = true) → (s.plotAll ps).readV VF = 1) ∧
    ((¬ ∃ p ∈ ps, s.pixel p.1 p.2 = true) → (s.plotAll ps).readV VF = s.readV VF) := by
  induction ps generalizing s with
  | nil => simp [State.plotAll]
  | cons p ps ih =>
    obtain ⟨hp, hnd⟩ := List.nodup_cons.1 hps
    obtain ⟨-, pp, pv, -⟩ := s.plot_spec p.1 p.2
    obtain ⟨hpix, h1, h0⟩ := ih (s.plot p.1 p.2) hnd
    -- the pixels of the rest are those of before the first plot, since they are different pixels
    have rest : ∀ q ∈ ps, (s.plot p.1 p.2).pixel q.1 q.2 = s.pixel q.1 q.2 := by
      intro q hq
      have : ¬ (q.1 = p.1 ∧ q.2 = p.2) := fun h => hp (Prod.ext h.1 h.2 ▸ hq)
      rw [pp]; simp [this]
    have hex : (∃ q ∈ ps, (s.plot p.1 p.2).pixel q.1 q.2 = true) ↔
        ∃ q ∈ ps, s.pixel q.1 q.2 = true :=
      exists_congr fun q => and_congr_right fun hq => by rw [rest q hq]
    refine ⟨fun r c => ?_, fun h => ?_, fun h => ?_⟩
    · rw [State.plotAll, hpix, pp]
      by_cases hrc : (r, c) = p
      · subst hrc; simp [hp]
      · have h2 : ¬ (r = p.1 ∧ c = p.2) := fun h => hrc (Prod.ext h.1 h.2)
        simp [hrc, h2]
    · by_cases hr : ∃ q ∈ ps, s.pixel q.1 q.2 = true
      · exact h1 (hex.2 hr)
      · rw [State.plotAll, h0 (fun h => hr (hex.1 h)), pv]
        obtain ⟨q, hq, hon⟩ := h
        rcases List.mem_cons.1 hq with rfl | hq
        · simp [hon]
        · exact absurd ⟨q, hq, hon⟩ hr
    · have hr : ¬ ∃ q ∈ ps, s.pixel q.1 q.2 = true :=
        fun ⟨q, hq, hon⟩ => h ⟨q, List.mem_cons_of_mem _ hq, hon⟩
      have hoff : ¬ s.pixel p.1 p.2 = true := fun hon => h ⟨p, List.mem_cons_self, hon⟩
      rw [State.plotAll, h0 (fun h => hr (hex.1 h)), pv, if_neg hoff]

/-! ## The pixels of a sprite -/

/-- The pixels of the last `fuel` bits of a sprite byte. -/
def bitPoints (vx row : Nat) (b : Byte) : Nat → List (Fin 32 × Fin 64)
  | 0 => []
  | fuel + 1 =>
    (if b.getLsbD (7 - (8 - (fuel + 1))) then
      [(Fin.ofNat 32 row, Fin.ofNat 64 (vx + (8 - (fuel + 1))))] else []) ++ bitPoints vx row b fuel

/-- The pixels of a sprite whose first row is `row`. -/
def spritePoints (vx row : Nat) : List Byte → List (Fin 32 × Fin 64)
  | [] => []
  | b :: bs => bitPoints vx row b 8 ++ spritePoints vx (row + 1) bs

/-- Drawing the bits of a byte is plotting their pixels. -/
theorem State.drawBits_eq (s : State) (vx row : Nat) (b : Byte) (fuel : Nat) :
    s.drawBits vx row b fuel = s.plotAll (bitPoints vx row b fuel) := by
  induction fuel generalizing s with
  | zero => rfl
  | succ fuel ih =>
    simp only [State.drawBits, bitPoints, ih, State.plotAll_append]
    split <;> rfl

/-- Drawing the rows of a sprite is plotting its pixels. -/
theorem State.drawRows_eq (s : State) (vx row : Nat) (bs : List Byte) :
    s.drawRows vx row bs = s.plotAll (spritePoints vx row bs) := by
  induction bs generalizing s row with
  | nil => rfl
  | cons b bs ih => simp [State.drawRows, spritePoints, ih, State.drawBits_eq, State.plotAll_append]

/-- Which pixels the last bits of a byte cover. -/
theorem mem_bitPoints {vx row : Nat} {b : Byte} {fuel : Nat} (hf : fuel ≤ 8)
    (p : Fin 32 × Fin 64) : p ∈ bitPoints vx row b fuel ↔
      ∃ bit, 8 - fuel ≤ bit ∧ bit < 8 ∧ b.getLsbD (7 - bit) = true ∧ p.1.val = row % 32 ∧
        p.2.val = (vx + bit) % 64 := by
  induction fuel with
  | zero => simp only [bitPoints, List.not_mem_nil, false_iff]; rintro ⟨bit, h1, h2, -⟩; omega
  | succ fuel ih =>
    rw [bitPoints, List.mem_append, ih (by omega)]
    constructor
    · rintro (h | ⟨bit, h1, h2, h3⟩)
      · split at h
        · next hb =>
          simp only [List.mem_singleton] at h
          subst h
          exact ⟨8 - (fuel + 1), le_refl _, by omega, hb, rfl, rfl⟩
        · simp at h
      · exact ⟨bit, by omega, h2, h3⟩
    · rintro ⟨bit, h1, h2, h3, h4, h5⟩
      by_cases hbit : bit = 8 - (fuel + 1)
      · subst hbit
        left
        rw [if_pos h3]
        simp only [List.mem_singleton]
        exact Prod.ext (Fin.ext h4) (Fin.ext h5)
      · exact Or.inr ⟨bit, by omega, h2, h3, h4, h5⟩

/-- The pixels of one byte are all different. -/
theorem nodup_bitPoints (vx row : Nat) (b : Byte) {fuel : Nat} (hf : fuel ≤ 8) :
    (bitPoints vx row b fuel).Nodup := by
  induction fuel with
  | zero => exact List.nodup_nil
  | succ fuel ih =>
    rw [bitPoints]
    split
    · refine List.nodup_cons.2 ⟨fun h => ?_, by simpa using ih (by omega)⟩
      obtain ⟨bit, h1, h2, -, -, h5⟩ := (mem_bitPoints (by omega) _).1 h
      have : (vx + (8 - (fuel + 1))) % 64 = (vx + bit) % 64 := h5
      omega
    · simpa using ih (by omega)

/-- Which pixels a sprite covers. -/
theorem mem_spritePoints {vx row : Nat} {bs : List Byte} (p : Fin 32 × Fin 64) :
    p ∈ spritePoints vx row bs ↔ ∃ k bit b, bs[k]? = some b ∧ bit < 8 ∧
      b.getLsbD (7 - bit) = true ∧ p.1.val = (row + k) % 32 ∧ p.2.val = (vx + bit) % 64 := by
  induction bs generalizing row with
  | nil => simp [spritePoints]
  | cons b bs ih =>
    rw [spritePoints, List.mem_append, ih, mem_bitPoints (le_refl 8)]
    constructor
    · rintro (⟨bit, -, h2, h3, h4, h5⟩ | ⟨k, bit, c, h1, h2, h3, h4, h5⟩)
      · exact ⟨0, bit, b, rfl, h2, h3, h4, h5⟩
      · exact ⟨k + 1, bit, c, by simpa using h1, h2, h3, by rw [h4]; congr 1; omega, h5⟩
    · rintro ⟨k, bit, c, h1, h2, h3, h4, h5⟩
      cases k with
      | zero =>
        simp only [List.getElem?_cons_zero, Option.some.injEq] at h1
        subst h1
        exact Or.inl ⟨bit, by omega, h2, h3, h4, h5⟩
      | succ k =>
        exact Or.inr ⟨k, bit, c, by simpa using h1, h2, h3, by rw [h4]; congr 1; omega, h5⟩

/-- The pixels of a sprite of at most 32 rows are all different (42_display.md R203). -/
theorem nodup_spritePoints (vx row : Nat) {bs : List Byte} (h : bs.length ≤ 32) :
    (spritePoints vx row bs).Nodup := by
  induction bs generalizing row with
  | nil => exact List.nodup_nil
  | cons b bs ih =>
    simp only [List.length_cons] at h
    refine List.nodup_append.2 ⟨nodup_bitPoints vx row b (le_refl 8), ih _ (by omega), ?_⟩
    rintro p hp q hq rfl
    obtain ⟨-, -, -, -, h4, -⟩ := (mem_bitPoints (le_refl 8) p).1 hp
    obtain ⟨k, -, c, hk, -, -, h4', -⟩ := (mem_spritePoints p).1 hq
    have hk' : k < bs.length := (List.getElem?_eq_some_iff.1 hk).1
    omega

end Sys2Proof.Machine
end

