-- ==== Sys2Proof/Laws/Encode.lean ====
section
/-! SUPPORT. The words the encoder builds, as numbers, and their fields (30_encoding.md R111, R112). -/

namespace Sys2Proof

/-- The number of a concatenation. -/
theorem toNat_append_eq {m n : Nat} (a : BitVec m) (b : BitVec n) :
    (a ++ b).toNat = a.toNat * 2 ^ n + b.toNat := by
  rw [BitVec.toNat_append, ← Nat.shiftLeft_add_eq_or_of_lt b.isLt, Nat.shiftLeft_eq]

theorem encNnn_toNat (f : BitVec 4) (a : Addr12) :
    (encNnn f a).toNat = f.toNat * 4096 + a.toNat := toNat_append_eq f a

theorem encXkk_toNat (f : BitVec 4) (x : Reg) (kk : Byte) :
    (encXkk f x kk).toNat = f.toNat * 4096 + x.toNat * 256 + kk.toNat := by
  have h1 : (encXkk f x kk).toNat = (f ++ x).toNat * 2 ^ 8 + kk.toNat := toNat_append_eq (f ++ x) kk
  rw [h1, toNat_append_eq]
  omega

theorem encXyn_toNat (f : BitVec 4) (x y : Reg) (n : BitVec 4) :
    (encXyn f x y n).toNat = f.toNat * 4096 + x.toNat * 256 + y.toNat * 16 + n.toNat := by
  have h1 : (encXyn f x y n).toNat = (f ++ x ++ y).toNat * 2 ^ 4 + n.toNat :=
    toNat_append_eq (f ++ x ++ y) n
  have h2 : (f ++ x ++ y).toNat = (f ++ x).toNat * 2 ^ 4 + y.toNat := toNat_append_eq (f ++ x) y
  rw [h1, h2, toNat_append_eq]
  omega

theorem wordOf_toNat (hi lo : Byte) : (wordOf hi lo).toNat = hi.toNat * 256 + lo.toNat :=
  toNat_append_eq hi lo

/-- The two bytes of a word make the word again (20_memory.md R83). -/
@[simp] theorem wordOf_bytes (op : Word) : wordOf (hiByte op) (loByte op) = op := by
  apply BitVec.eq_of_toNat_eq
  have := op.isLt
  rw [wordOf_toNat]
  simp only [hiByte, loByte, BitVec.extractLsb'_toNat, Nat.shiftRight_eq_div_pow]
  omega

/-- The fields of a word of format NNN. -/
theorem fields_encNnn (f : BitVec 4) (a : Addr12) :
    fieldFamily (encNnn f a) = f ∧ fieldNnn (encNnn f a) = a := by
  have h := encNnn_toNat f a
  have hf := f.isLt
  have ha := a.isLt
  refine ⟨BitVec.eq_of_toNat_eq ?_, BitVec.eq_of_toNat_eq ?_⟩
  · simp only [fieldFamily, BitVec.extractLsb'_toNat, h, Nat.shiftRight_eq_div_pow]; omega
  · simp only [fieldNnn, BitVec.extractLsb'_toNat, h, Nat.shiftRight_eq_div_pow]; omega

/-- The fields of a word of format XKK or XLL. -/
theorem fields_encXkk (f : BitVec 4) (x : Reg) (kk : Byte) :
    fieldFamily (encXkk f x kk) = f ∧ fieldX (encXkk f x kk) = x ∧
      fieldKk (encXkk f x kk) = kk := by
  have h := encXkk_toNat f x kk
  have hf := f.isLt
  have hx := x.isLt
  have hk := kk.isLt
  refine ⟨BitVec.eq_of_toNat_eq ?_, BitVec.eq_of_toNat_eq ?_, BitVec.eq_of_toNat_eq ?_⟩
  · simp only [fieldFamily, BitVec.extractLsb'_toNat, h, Nat.shiftRight_eq_div_pow]; omega
  · simp only [fieldX, BitVec.extractLsb'_toNat, h, Nat.shiftRight_eq_div_pow]; omega
  · simp only [fieldKk, BitVec.extractLsb'_toNat, h, Nat.shiftRight_eq_div_pow]; omega

/-- The fields of a word of format XYN. -/
theorem fields_encXyn (f : BitVec 4) (x y : Reg) (n : BitVec 4) :
    fieldFamily (encXyn f x y n) = f ∧ fieldX (encXyn f x y n) = x ∧
      fieldY (encXyn f x y n) = y ∧ fieldN (encXyn f x y n) = n := by
  have h := encXyn_toNat f x y n
  have hf := f.isLt
  have hx := x.isLt
  have hy := y.isLt
  have hn := n.isLt
  refine ⟨BitVec.eq_of_toNat_eq ?_, BitVec.eq_of_toNat_eq ?_, BitVec.eq_of_toNat_eq ?_,
    BitVec.eq_of_toNat_eq ?_⟩
  · simp only [fieldFamily, BitVec.extractLsb'_toNat, h, Nat.shiftRight_eq_div_pow]; omega
  · simp only [fieldX, BitVec.extractLsb'_toNat, h, Nat.shiftRight_eq_div_pow]; omega
  · simp only [fieldY, BitVec.extractLsb'_toNat, h, Nat.shiftRight_eq_div_pow]; omega
  · simp only [fieldN, BitVec.extractLsb'_toNat, h, Nat.shiftRight_eq_div_pow]; omega

end Sys2Proof
end

