-- ==== Sys2Proof/Laws/Ops.lean ====
section
/-! SUPPORT. One lemma for each of the other shared operations: the register list, the stack, the
key search, the flag arithmetic, the timers. -/

namespace Sys2Proof.Machine

/-! ## Registers from a list -/

/-- Everything `writeRegsFrom` does: register z gets the byte of its place in the list if it has one,
and only the registers change. -/
theorem State.writeRegsFrom_spec (s : State) (k : Nat) (bs : List Byte) :
    s.writeRegsFrom k bs = { s with v := (s.writeRegsFrom k bs).v } ∧
    ∀ z : Reg, (s.writeRegsFrom k bs).readV z =
      if k ≤ z.toNat then bs[z.toNat - k]?.getD (s.readV z) else s.readV z := by
  induction bs generalizing s k with
  | nil => simp [State.writeRegsFrom]
  | cons b bs ih =>
    unfold State.writeRegsFrom
    by_cases hk : k < 16
    · simp only [hk, if_true]
      obtain ⟨hf, hr⟩ := ih (s.writeV (BitVec.ofNat 4 k) b) (k + 1)
      have hkn : (BitVec.ofNat 4 k).toNat = k := by simp; omega
      refine ⟨by rw [hf]; rfl, fun z => ?_⟩
      rw [hr]
      rcases Nat.lt_trichotomy z.toNat k with h | h | h
      · rw [if_neg (by omega), if_neg (by omega)]
        exact s.readV_writeV_other b (fun e => by rw [e] at h; omega)
      · have hz : z = BitVec.ofNat 4 k := BitVec.eq_of_toNat_eq (by rw [hkn, h])
        rw [if_neg (by omega), if_pos (by omega), h, Nat.sub_self, hz]
        simp
      · have hz : z ≠ BitVec.ofNat 4 k := fun e => by rw [e] at h; omega
        rw [if_pos (by omega), if_pos (by omega), s.readV_writeV_other b hz]
        have : z.toNat - k = (z.toNat - (k + 1)) + 1 := by omega
        rw [this, List.getElem?_cons_succ]
    · simp only [hk, if_false]
      have hz : ∀ z : Reg, ¬ k ≤ z.toNat := fun z => by have := z.isLt; omega
      exact ⟨by trivial, fun z => by rw [if_neg (hz z)]⟩

/-- The list V[0] to V[x]: x + 1 bytes, the k-th being V[k]. -/
theorem State.regsUpTo_spec (s : State) (x : Reg) :
    (s.regsUpTo x).length = x.toNat + 1 ∧
    ∀ z : Reg, z.toNat ≤ x.toNat → (s.regsUpTo x)[z.toNat]? = some (s.readV z) := by
  have hx : x.toNat < 16 := x.isLt
  refine ⟨by simp [State.regsUpTo]; omega, fun z hz => ?_⟩
  have hz' : z.toNat < 16 := z.isLt
  rw [State.regsUpTo, List.getElem?_take_of_lt (by omega), State.readV]
  simp [hz']

/-! ## The stack -/

/-- Everything a push does with an entry free (10_state.md R40). -/
theorem State.push_spec (s : State) (w : Word) (h : s.sp.toNat < 16) :
    s.push w = some { s with stack := s.stack.set s.sp.toNat w, sp := s.sp + 1 } ∧
      (s.sp + 1).toNat = s.sp.toNat + 1 := by
  refine ⟨by simp [State.push, h], ?_⟩
  rw [BitVec.toNat_add]
  simp only [BitVec.ofNat_eq_ofNat, BitVec.toNat_ofNat, Nat.reducePow]
  omega

/-- A push has no entry to write exactly when SP is 16 or more. -/
theorem State.push_eq_none (s : State) (w : Word) : s.push w = none ↔ 16 ≤ s.sp.toNat := by
  unfold State.push
  split
  · simp only [reduceCtorEq, false_iff]; omega
  · simp only [true_iff]; omega

/-- Everything a pop does with 1 to 16 entries in use (10_state.md R40). -/
theorem State.pop_spec (s : State) (k : Fin 16) (h : s.sp.toNat = k.val + 1) :
    s.pop = some (s.stack[k], { s with sp := s.sp - 1 }) ∧ (s.sp - 1).toNat = k.val := by
  have hk := k.isLt
  have hsp : (s.sp - 1).toNat = k.val := by
    rw [BitVec.toNat_sub]
    simp only [BitVec.ofNat_eq_ofNat, BitVec.toNat_ofNat, Nat.reducePow]
    omega
  refine ⟨?_, hsp⟩
  have hlt : (s.sp - 1).toNat < 16 := by omega
  simp only [State.pop, hlt, dite_true, Option.some.injEq, Prod.mk.injEq, and_true]
  simp only [hsp]
  rfl

/-! ## Keys -/

theorem lowestFrom_spec (keys : BitVec 16) (k fuel : Nat) :
    (∀ j, lowestFrom keys k fuel = some j → k ≤ j ∧ j < k + fuel ∧ keys.getLsbD j = true ∧
      ∀ m, k ≤ m → m < j → keys.getLsbD m = false) ∧
    (lowestFrom keys k fuel = none → ∀ m, k ≤ m → m < k + fuel → keys.getLsbD m = false) := by
  induction fuel generalizing k with
  | zero =>
    refine ⟨by simp [lowestFrom], fun _ m h1 h2 => ?_⟩
    omega
  | succ fuel ih =>
    unfold lowestFrom
    obtain ⟨h1, h2⟩ := ih (k + 1)
    by_cases hk : keys.getLsbD k = true
    · simp only [hk, if_true]
      refine ⟨fun j hj => ?_, by simp⟩
      cases hj
      exact ⟨le_refl _, by omega, hk, fun m h3 h4 => by omega⟩
    · simp only [hk, if_false, Bool.false_eq_true]
      refine ⟨fun j hj => ?_, fun hn m h3 h4 => ?_⟩
      · obtain ⟨a, b, c, d⟩ := h1 j hj
        refine ⟨by omega, by omega, c, fun m h3 h4 => ?_⟩
        rcases Nat.eq_or_lt_of_le h3 with rfl | h
        · simpa using hk
        · exact d m (by omega) h4
      · rcases Nat.eq_or_lt_of_le h3 with rfl | h
        · simpa using hk
        · exact h2 hn m (by omega) (by omega)

/-- The key search finds the lowest pressed key, and none exactly when no key is pressed
(43_keys_timers.md R222). -/
theorem State.lowestKey_spec (s : State) :
    (s.lowestKey = none ↔ s.keys = 0) ∧
    ∀ k, s.lowestKey = some k → k < 16 ∧ s.keys.getLsbD k = true ∧
      ∀ j, j < k → s.keys.getLsbD j = false := by
  obtain ⟨h1, h2⟩ := lowestFrom_spec s.keys 0 16
  have hsome : ∀ k, s.lowestKey = some k → k < 16 ∧ s.keys.getLsbD k = true ∧
      ∀ j, j < k → s.keys.getLsbD j = false := fun k hk => by
    obtain ⟨-, b, c, d⟩ := h1 k hk
    exact ⟨by omega, c, fun j hj => d j (Nat.zero_le _) hj⟩
  refine ⟨⟨fun h => ?_, fun h => ?_⟩, hsome⟩
  · refine BitVec.eq_of_getLsbD_eq fun m hm => ?_
    rw [h2 h m (Nat.zero_le _) (by omega)]
    simp
  · cases hk : s.lowestKey with
    | none => rfl
    | some k => have := (hsome k hk).2.1; rw [h] at this; simp at this

/-! ## Timers -/

/-- A timer counts down by one and stays at 0 (60_exceptions.md R275). -/
@[simp] theorem countDown_toNat (t : Byte) : (countDown t).toNat = t.toNat - 1 := by
  have ht : t.toNat < 256 := t.isLt
  unfold countDown
  split
  · rw [BitVec.toNat_sub]
    simp only [BitVec.ofNat_eq_ofNat, BitVec.toNat_ofNat, Nat.reducePow, Nat.reduceMod]
    omega
  · omega

/-! ## Flag arithmetic -/

@[simp] theorem aluAdd_result (a b : Byte) : (aluAdd a b).1.toNat = (a.toNat + b.toNat) % 256 := by
  simp [aluAdd]

@[simp] theorem subMod_toNat (a b : Byte) :
    (subMod a b).toNat = (a.toNat + 256 - b.toNat) % 256 := by
  have ha : a.toNat < 256 := a.isLt
  have hb : b.toNat < 256 := b.isLt
  unfold subMod
  simp only [BitVec.toNat_ofNat, Nat.reducePow]
  split
  · omega
  · omega

@[simp] theorem aluShr_result (a : Byte) : (aluShr a).1.toNat = a.toNat / 2 := by
  have ha : a.toNat < 256 := a.isLt
  simp only [aluShr, BitVec.toNat_ofNat, Nat.reducePow]
  omega

@[simp] theorem aluShl_result (a : Byte) : (aluShl a).1.toNat = a.toNat * 2 % 256 := by
  simp [aluShl]

/-- The flag byte is 1 when the condition holds and 0 otherwise. -/
@[simp] theorem flagByte_true : flagByte true = 1 := rfl
@[simp] theorem flagByte_false : flagByte false = 0 := rfl

/-- Everything the shared end of the flag writers does (41_load_alu.md R188). -/
theorem State.finishFlagged_spec (s : State) (x : Reg) (p : Byte × Byte) :
    (s.finishFlagged x p).readV x = p.1 ∧
    (x ≠ VF → (s.finishFlagged x p).readV VF = p.2) ∧
    (∀ z, z ≠ x → z ≠ VF → (s.finishFlagged x p).readV z = s.readV z) ∧
    s.finishFlagged x p = { s with v := (s.finishFlagged x p).v, pc := s.pc + 2 } := by
  refine ⟨by simp [State.finishFlagged], fun hx => ?_, fun z hz hv => ?_, rfl⟩
  · simp [State.finishFlagged, State.readV_writeV_other _ _ (Ne.symm hx)]
  · simp [State.finishFlagged, State.readV_writeV_other _ _ hz, State.readV_writeV_other _ _ hv]

/-! ## Events -/

@[simp] theorem State.timerTick_dt (s : State) : s.timerTick.dt = countDown s.dt := rfl
@[simp] theorem State.timerTick_st (s : State) : s.timerTick.st = countDown s.st := rfl
@[simp] theorem State.timerTick_out (s : State) :
    s.timerTick.env.out = some (.beep (decide (s.st.toNat > 0))) := rfl

/-- What Boot leaves in memory: the ROM where it lies, the background elsewhere. -/
theorem State.memRead_boot (s : State) (rom : List Byte) (a : Nat) (ha : a < 4096) :
    (s.boot rom).memRead a = some
      (if 0x200 ≤ a ∧ a < 0x200 + (rom.take 3584).length then (rom.take 3584)[a - 0x200]?.getD 0
       else background s.env.font a) := by
  simp only [State.memRead, Config.memSize, ha, if_true, State.boot, Config.romBase, Config.romMax,
    Mem.read_cellsFrom]

/-- Boot leaves a canonical memory. -/
theorem State.wf_boot (s : State) (rom : List Byte) :
    Memory.wf (s.boot rom).env.font (s.boot rom).mem = true := by
  refine Mem.wfAbove_cellsFrom _ none _ _ (by simp) ?_
  simp only [Config.romBase, Config.romMax, Config.memSize, List.length_take]
  omega

end Sys2Proof.Machine
end

