-- ==== Sys2Proof/Laws/Exec.lean ====
section
/-! SUPPORT. Inversion of the meanings that can fault or store: each is the fault of 60_exceptions.md
R261 or its own effect, never a third thing. Every other meaning is one next state by definition. -/

namespace Sys2Proof.Machine

/-- What CALL can do: the overflow fault, the push and the jump, or the model's stop for an illegal
SP. -/
theorem exec_call_cases (s : State) (nnn : Addr12) :
    (s.sp.toNat = 16 ∧ exec (.call nnn) s = .next (s.halt .stackOverflow)) ∨
    (∃ h : s.sp.toNat < 16, exec (.call nnn) s = .next
      { s with stack := s.stack.set s.sp.toNat s.npc h, sp := s.sp + 1, pc := zextAddr nnn }) ∨
    (16 < s.sp.toNat ∧ exec (.call nnn) s = .fault .stackPointerIllegal) := by
  by_cases h16 : s.sp = 16
  · exact Or.inl ⟨by rw [h16]; rfl, by simp [exec, execCall, h16, raise]⟩
  · have hne : s.sp.toNat ≠ 16 := fun h => h16 (BitVec.eq_of_toNat_eq (by rw [h]; rfl))
    by_cases hlt : s.sp.toNat < 16
    · exact Or.inr (Or.inl ⟨hlt, by
        simp only [exec, execCall, h16, if_false, (s.push_spec s.npc hlt).1]⟩)
    · have hnone := (s.push_eq_none s.npc).2 (by omega)
      exact Or.inr (Or.inr ⟨by omega, by simp only [exec, execCall, h16, if_false, hnone]⟩)

/-- What RET can do: the underflow fault, the pop, or the model's stop for an illegal SP. -/
theorem exec_ret_cases (s : State) :
    (s.sp.toNat = 0 ∧ exec .ret s = .next (s.halt .stackUnderflow)) ∨
    (∃ k : Fin 16, s.sp.toNat = k.val + 1 ∧ (s.sp - 1).toNat = k.val ∧
      exec .ret s = .next { s with sp := s.sp - 1, pc := s.stack[k] }) ∨
    (16 < s.sp.toNat ∧ exec .ret s = .fault .stackPointerIllegal) := by
  by_cases h0 : s.sp = 0
  · exact Or.inl ⟨by rw [h0]; rfl, by simp [exec, execRet, h0, raise]⟩
  · have hne : s.sp.toNat ≠ 0 := fun h => h0 (BitVec.eq_of_toNat_eq (by rw [h]; rfl))
    by_cases hle : s.sp.toNat ≤ 16
    · obtain ⟨h1, h2⟩ := s.pop_spec ⟨s.sp.toNat - 1, by omega⟩ (by simp only; omega)
      exact Or.inr (Or.inl ⟨⟨s.sp.toNat - 1, by omega⟩, by simp only; omega, h2, by
        simp only [exec, execRet, h0, if_false, h1]⟩)
    · have hlt := s.sp.isLt
      have hnone : s.pop = none := by
        have : (s.sp - 1).toNat = s.sp.toNat - 1 := by
          rw [BitVec.toNat_sub]
          simp only [BitVec.ofNat_eq_ofNat, BitVec.toNat_ofNat, Nat.reducePow]
          omega
        simp only [State.pop, this, dite_eq_right_iff, reduceCtorEq]
        intro h
        omega
      exact Or.inr (Or.inr ⟨by omega, by simp only [exec, execRet, h0, if_false, hnone]⟩)

/-- What LD B can do: the range fault, or the three stores and the advance. -/
theorem exec_ldB_cases (s : State) (x : Reg) :
    (0xFFF < s.i.toNat + 2 ∧ exec (.ldB x) s = .next (s.halt .memRange)) ∨
    (s.i.toNat + 2 ≤ 0xFFF ∧ ∃ t, s.writeBytes (s.effAddr 0) (bcdDigits (s.readV x)) = some t ∧
      exec (.ldB x) s = .next t.advance) := by
  have hn := (s.writeBytes_spec (s.effAddr 0) (bcdDigits (s.readV x))).1
  simp only [State.effAddr, bcdDigits, List.length_cons, List.length_nil] at hn
  cases h : s.writeBytes (s.effAddr 0) (bcdDigits (s.readV x)) with
  | none =>
    refine Or.inl ⟨?_, by simp only [exec, execLdB, h, raise]⟩
    have := hn.1 h
    omega
  | some t =>
    refine Or.inr ⟨?_, t, rfl, by simp only [exec, execLdB, h]⟩
    by_contra hlt
    have := hn.2 (by omega)
    rw [State.effAddr, bcdDigits, this] at h
    cases h

/-- What the register dump can do: the range fault, or the stores and the advance. -/
theorem exec_stRegs_cases (s : State) (x : Reg) :
    (0xFFF < s.i.toNat + x.toNat ∧ exec (.stRegs x) s = .next (s.halt .memRange)) ∨
    (s.i.toNat + x.toNat ≤ 0xFFF ∧ ∃ t, s.writeBytes (s.effAddr 0) (s.regsUpTo x) = some t ∧
      exec (.stRegs x) s = .next t.advance) := by
  have hn := (s.writeBytes_spec (s.effAddr 0) (s.regsUpTo x)).1
  rw [(s.regsUpTo_spec x).1] at hn
  have he : s.effAddr 0 = s.i.toNat := rfl
  cases h : s.writeBytes (s.effAddr 0) (s.regsUpTo x) with
  | none =>
    refine Or.inl ⟨?_, by simp only [exec, execStRegs, h, raise]⟩
    have := hn.1 h
    omega
  | some t =>
    refine Or.inr ⟨?_, t, rfl, by simp only [exec, execStRegs, h]⟩
    by_contra hlt
    rw [hn.2 (by omega)] at h
    cases h

/-- What the register load can do: the range fault, or the register writes and the advance. -/
theorem exec_ldRegs_cases (s : State) (x : Reg) :
    (0xFFF < s.i.toNat + x.toNat ∧ exec (.ldRegs x) s = .next (s.halt .memRange)) ∨
    (s.i.toNat + x.toNat ≤ 0xFFF ∧ ∃ bs, s.readBytes (s.effAddr 0) (x.toNat + 1) = some bs ∧
      exec (.ldRegs x) s = .next (s.writeRegsFrom 0 bs).advance) := by
  have hn := s.readBytes_eq_none (s.effAddr 0) (x.toNat + 1)
  have he : s.effAddr 0 = s.i.toNat := rfl
  cases h : s.readBytes (s.effAddr 0) (x.toNat + 1) with
  | none =>
    refine Or.inl ⟨?_, by simp only [exec, execLdRegs, h, raise]⟩
    have := hn.1 h
    omega
  | some bs =>
    refine Or.inr ⟨?_, bs, rfl, by simp only [exec, execLdRegs, h]⟩
    by_contra hlt
    rw [hn.2 (by omega)] at h
    cases h

/-- What DRW can do: the range fault, or the plotting of its sprite's pixels on the state with VF
cleared, and the advance. -/
theorem exec_drw_cases (s : State) (x y : Reg) (n : Nat) :
    (0 < n ∧ 0xFFF < s.i.toNat + n - 1 ∧ exec (.drw x y n) s = .next (s.halt .memRange)) ∨
    ((n = 0 ∨ s.i.toNat + n - 1 ≤ 0xFFF) ∧ ∃ bs, s.readBytes (s.effAddr 0) n = some bs ∧
      exec (.drw x y n) s = .next ((s.writeV VF 0).plotAll
        (spritePoints (s.readV x).toNat (s.readV y).toNat bs)).advance) := by
  have hn := s.readBytes_eq_none (s.effAddr 0) n
  have he : s.effAddr 0 = s.i.toNat := rfl
  cases h : s.readBytes (s.effAddr 0) n with
  | none =>
    have := hn.1 h
    exact Or.inl ⟨this.1, by omega, by simp only [exec, execDrw, h, raise]⟩
  | some bs =>
    refine Or.inr ⟨?_, bs, rfl, by simp only [exec, execDrw, h, State.drawRows_eq]⟩
    by_contra hlt
    rw [hn.2 (by omega)] at h
    cases h

end Sys2Proof.Machine
end

