-- ==== Sys2Proof/Laws/PerInstr.lean ====
section
/-! SUPPORT. One statement per instruction about its encoding: the encoder puts the fixed digits of
the instruction's row of 30_encoding.md R118 where the row's mask has them. -/

namespace Sys2Proof.Laws.EncodeKeepsPattern

open Sys2Proof

/-- Masking digit by digit: AND of two words of four digits is the AND of the digits. -/
theorem and_digits (a b c d a' b' c' d' : BitVec 4) :
    encXyn a b c d &&& encXyn a' b' c' d' =
      encXyn (a &&& a') (b &&& b') (c &&& c') (d &&& d') := by
  have h1 : ((a ++ b ++ c ++ d) &&& (a' ++ b' ++ c' ++ d')) =
      ((a ++ b ++ c) &&& (a' ++ b' ++ c')) ++ (d &&& d') := BitVec.and_append
  have h2 : ((a ++ b ++ c) &&& (a' ++ b' ++ c')) =
      ((a ++ b) &&& (a' ++ b')) ++ (c &&& c') := BitVec.and_append
  have h3 : ((a ++ b) &&& (a' ++ b')) = (a &&& a') ++ (b &&& b') := BitVec.and_append
  exact h1.trans (by rw [h2, h3]; rfl)

theorem and_ones (a : BitVec 4) : a &&& 0xF#4 = a := by revert a; decide
theorem and_zeros (a : BitVec 4) : a &&& 0x0#4 = 0x0#4 := by revert a; decide

/-- The mask F000 keeps the first digit. -/
theorem mask_first (a b c d : BitVec 4) : encXyn a b c d &&& 0xF000#16 = encXyn a 0 0 0 := by
  have h := and_digits a b c d 0xF#4 0x0#4 0x0#4 0x0#4
  rwa [and_ones, and_zeros, and_zeros, and_zeros] at h

/-- The mask F00F keeps the first and the last digit. -/
theorem mask_first_last (a b c d : BitVec 4) :
    encXyn a b c d &&& 0xF00F#16 = encXyn a 0 0 d := by
  have h := and_digits a b c d 0xF#4 0x0#4 0x0#4 0xF#4
  rwa [and_ones, and_ones, and_zeros, and_zeros] at h

/-- The mask F0FF keeps all digits but the second. -/
theorem mask_not_second (a b c d : BitVec 4) :
    encXyn a b c d &&& 0xF0FF#16 = encXyn a 0 c d := by
  have h := and_digits a b c d 0xF#4 0x0#4 0xF#4 0xF#4
  rwa [and_ones, and_ones, and_ones, and_zeros] at h

/-- A word of format XKK, digit by digit. -/
theorem encXkk_digits (f : BitVec 4) (x : Reg) (kk : Byte) :
    encXkk f x kk = encXyn f x (kk.extractLsb' 4 4) (kk.extractLsb' 0 4) := by
  apply BitVec.eq_of_toNat_eq
  have hk := kk.isLt
  rw [encXkk_toNat, encXyn_toNat]
  simp only [BitVec.extractLsb'_toNat, Nat.shiftRight_eq_div_pow]
  omega

/-- A word of format NNN, digit by digit. -/
theorem encNnn_digits (f : BitVec 4) (a : Addr12) :
    encNnn f a =
      encXyn f (a.extractLsb' 8 4) (a.extractLsb' 4 4) (a.extractLsb' 0 4) := by
  apply BitVec.eq_of_toNat_eq
  have ha := a.isLt
  rw [encNnn_toNat, encXyn_toNat]
  simp only [BitVec.extractLsb'_toNat, Nat.shiftRight_eq_div_pow]
  omega

/-- The instruction's word belongs to its own row of the opcode table. -/
def Statement (i : Instr) : Prop :=
  ∃ row, opcodeTable[rowIndex i]? = some row ∧ row.accepts (encode i) = true

/-- A row accepts a word when the masked word is its pattern. -/
theorem accepts_of {r : OpcodeRow} {op : Word} (h : op &&& r.mask = r.pattern) :
    r.accepts op = true := by simpa [OpcodeRow.accepts] using h

theorem cls : Statement .cls := ⟨_, rfl, rfl⟩
theorem ret : Statement .ret := ⟨_, rfl, rfl⟩
theorem jp (a : Addr12) : Statement (.jp a) :=
  ⟨_, rfl, accepts_of ((congrArg (· &&& 0xF000#16) (encNnn_digits _ a)).trans (mask_first _ _ _ _))⟩
theorem call (a : Addr12) : Statement (.call a) :=
  ⟨_, rfl, accepts_of ((congrArg (· &&& 0xF000#16) (encNnn_digits _ a)).trans (mask_first _ _ _ _))⟩
theorem seImm (x : Reg) (kk : Byte) : Statement (.seImm x kk) :=
  ⟨_, rfl, accepts_of ((congrArg (· &&& 0xF000#16) (encXkk_digits _ x kk)).trans (mask_first _ _ _ _))⟩
theorem sneImm (x : Reg) (kk : Byte) : Statement (.sneImm x kk) :=
  ⟨_, rfl, accepts_of ((congrArg (· &&& 0xF000#16) (encXkk_digits _ x kk)).trans (mask_first _ _ _ _))⟩
theorem seReg (x y : Reg) : Statement (.seReg x y) :=
  ⟨_, rfl, accepts_of (mask_first_last _ x y _)⟩
theorem ldImm (x : Reg) (kk : Byte) : Statement (.ldImm x kk) :=
  ⟨_, rfl, accepts_of ((congrArg (· &&& 0xF000#16) (encXkk_digits _ x kk)).trans (mask_first _ _ _ _))⟩
theorem addImm (x : Reg) (kk : Byte) : Statement (.addImm x kk) :=
  ⟨_, rfl, accepts_of ((congrArg (· &&& 0xF000#16) (encXkk_digits _ x kk)).trans (mask_first _ _ _ _))⟩
theorem ldReg (x y : Reg) : Statement (.ldReg x y) :=
  ⟨_, rfl, accepts_of (mask_first_last _ x y _)⟩
theorem orReg (x y : Reg) : Statement (.orReg x y) :=
  ⟨_, rfl, accepts_of (mask_first_last _ x y _)⟩
theorem andReg (x y : Reg) : Statement (.andReg x y) :=
  ⟨_, rfl, accepts_of (mask_first_last _ x y _)⟩
theorem xorReg (x y : Reg) : Statement (.xorReg x y) :=
  ⟨_, rfl, accepts_of (mask_first_last _ x y _)⟩
theorem addReg (x y : Reg) : Statement (.addReg x y) :=
  ⟨_, rfl, accepts_of (mask_first_last _ x y _)⟩
theorem sub (x y : Reg) : Statement (.sub x y) :=
  ⟨_, rfl, accepts_of (mask_first_last _ x y _)⟩
theorem shr (x y : Reg) : Statement (.shr x y) :=
  ⟨_, rfl, accepts_of (mask_first_last _ x y _)⟩
theorem subn (x y : Reg) : Statement (.subn x y) :=
  ⟨_, rfl, accepts_of (mask_first_last _ x y _)⟩
theorem shl (x y : Reg) : Statement (.shl x y) :=
  ⟨_, rfl, accepts_of (mask_first_last _ x y _)⟩
theorem sneReg (x y : Reg) : Statement (.sneReg x y) :=
  ⟨_, rfl, accepts_of (mask_first_last _ x y _)⟩
theorem ldI (a : Addr12) : Statement (.ldI a) :=
  ⟨_, rfl, accepts_of ((congrArg (· &&& 0xF000#16) (encNnn_digits _ a)).trans (mask_first _ _ _ _))⟩
theorem jpV0 (a : Addr12) : Statement (.jpV0 a) :=
  ⟨_, rfl, accepts_of ((congrArg (· &&& 0xF000#16) (encNnn_digits _ a)).trans (mask_first _ _ _ _))⟩
theorem rnd (x : Reg) (kk : Byte) : Statement (.rnd x kk) :=
  ⟨_, rfl, accepts_of ((congrArg (· &&& 0xF000#16) (encXkk_digits _ x kk)).trans (mask_first _ _ _ _))⟩
theorem drw (x y : Reg) (n : Nat) : Statement (.drw x y n) :=
  ⟨_, rfl, accepts_of (mask_first _ x y _)⟩
theorem skp (x : Reg) : Statement (.skp x) :=
  ⟨_, rfl, accepts_of ((congrArg (· &&& 0xF0FF#16) (encXkk_digits _ x _)).trans (mask_not_second _ _ _ _))⟩
theorem sknp (x : Reg) : Statement (.sknp x) :=
  ⟨_, rfl, accepts_of ((congrArg (· &&& 0xF0FF#16) (encXkk_digits _ x _)).trans (mask_not_second _ _ _ _))⟩
theorem ldVxDt (x : Reg) : Statement (.ldVxDt x) :=
  ⟨_, rfl, accepts_of ((congrArg (· &&& 0xF0FF#16) (encXkk_digits _ x _)).trans (mask_not_second _ _ _ _))⟩
theorem ldVxK (x : Reg) : Statement (.ldVxK x) :=
  ⟨_, rfl, accepts_of ((congrArg (· &&& 0xF0FF#16) (encXkk_digits _ x _)).trans (mask_not_second _ _ _ _))⟩
theorem ldDtVx (x : Reg) : Statement (.ldDtVx x) :=
  ⟨_, rfl, accepts_of ((congrArg (· &&& 0xF0FF#16) (encXkk_digits _ x _)).trans (mask_not_second _ _ _ _))⟩
theorem ldStVx (x : Reg) : Statement (.ldStVx x) :=
  ⟨_, rfl, accepts_of ((congrArg (· &&& 0xF0FF#16) (encXkk_digits _ x _)).trans (mask_not_second _ _ _ _))⟩
theorem addI (x : Reg) : Statement (.addI x) :=
  ⟨_, rfl, accepts_of ((congrArg (· &&& 0xF0FF#16) (encXkk_digits _ x _)).trans (mask_not_second _ _ _ _))⟩
theorem ldF (x : Reg) : Statement (.ldF x) :=
  ⟨_, rfl, accepts_of ((congrArg (· &&& 0xF0FF#16) (encXkk_digits _ x _)).trans (mask_not_second _ _ _ _))⟩
theorem ldB (x : Reg) : Statement (.ldB x) :=
  ⟨_, rfl, accepts_of ((congrArg (· &&& 0xF0FF#16) (encXkk_digits _ x _)).trans (mask_not_second _ _ _ _))⟩
theorem stRegs (x : Reg) : Statement (.stRegs x) :=
  ⟨_, rfl, accepts_of ((congrArg (· &&& 0xF0FF#16) (encXkk_digits _ x _)).trans (mask_not_second _ _ _ _))⟩
theorem ldRegs (x : Reg) : Statement (.ldRegs x) :=
  ⟨_, rfl, accepts_of ((congrArg (· &&& 0xF0FF#16) (encXkk_digits _ x _)).trans (mask_not_second _ _ _ _))⟩

end Sys2Proof.Laws.EncodeKeepsPattern
end

