-- ==== Sys2Proof/Laws/Run.lean ====
section
/-! SUPPORT. What a step does for each next event, and runs of several steps. -/

namespace Sys2Proof.Machine

/-! ## One step, by the event that is next (10_state.md R50) -/

section step
variable {s : State} {es : List Event}

theorem step_boot {rom : List Byte} (h : s.env.inputs = .boot rom :: es) :
    step s = .next ((s.withInputs es).boot rom) := by simp only [step, nextEvent, h, perform]

theorem step_cycle {r : Byte} (h : s.env.inputs = .cycle r :: es) :
    step s = cycle (some r) (s.withInputs es) := by simp only [step, nextEvent, h, perform]

theorem step_noInput (h : s.env.inputs = []) : step s = cycle none s := by
  simp only [step, nextEvent, h]

theorem step_timerTick (h : s.env.inputs = .timerTick :: es) :
    step s = .next (s.withInputs es).timerTick := by simp only [step, nextEvent, h, perform]

theorem step_setKeys {k : BitVec 16} (h : s.env.inputs = .setKeys k :: es) :
    step s = .next ((s.withInputs es).setKeys k) := by simp only [step, nextEvent, h, perform]

theorem step_redrawAck (h : s.env.inputs = .redrawAck :: es) :
    step s = .next (s.withInputs es).redrawAck := by simp only [step, nextEvent, h, perform]

end step

/-! ## Runs -/

@[simp] theorem runSteps_zero (s : State) : runSteps 0 s = .next s := rfl

theorem runSteps_succ {s t : State} (n : Nat) (h : step s = .next t) :
    runSteps (n + 1) s = runSteps n t := by simp only [runSteps, h]

/-! ## Stored bytes -/

/-- An address that no stored byte covers reads as before. -/
theorem byteAfter_outside {i : Instr} {s : State} {a : Nat}
    (h : a < s.effAddr 0 ∨ s.effAddr 0 + (storedBytes i s).length ≤ a) :
    byteAfter i s a = s.memRead a := by
  unfold byteAfter
  rw [if_neg (by omega)]

/-- The k-th stored byte stands k bytes above I. -/
theorem byteAfter_stored {i : Instr} {s : State} {k : Nat} (h : k < (storedBytes i s).length) :
    byteAfter i s (s.effAddr 0 + k) = (storedBytes i s)[k]? := by
  unfold byteAfter
  rw [if_pos (by omega), Nat.add_sub_cancel_left]

end Sys2Proof.Machine
end

