-- ==== Sys2Proof/Tests/Slice0.lean ====
section
/-! SUPPORT. The model's own tests. Expected values are those of 95_test_vectors.md, whose vector is
named in each comment, or are worked out by hand from the rule named there. The last part gives, for
every statement with hypotheses, a state and operands that meet them. -/

namespace Sys2Proof.Tests

open Sys2Proof.Machine

/-! ## Helpers -/

/-- Fields of the next state, if there is one. -/
def view {α : Type} (f : State → α) : Result → Option α
  | .next t => some (f t)
  | .fault _ => none
  | .refused _ => none

/-- The step that runs one word placed at PC. -/
def run (w : Nat) (s : State) : Result := step (s.withFetchWord 16 w)

/-- The same with a random byte written down. -/
def runRand (w : Nat) (r : Byte) (s : State) : Result :=
  step ((s.withFetchWord 16 w).withInputs [.cycle r])

/-- The step that performs one event. -/
def event (e : Event) (s : State) : Result := step (s.withInputs [e])

/-- A byte stored before the test starts. -/
def poke (a : Nat) (b : Byte) (s : State) : State := (s.memWrite a b).getD s

/-- Memory bytes from an address on. -/
def bytes (a n : Nat) (s : State) : Option (List Byte) := s.readBytes a n

/-- The state after Boot with two registers preset. -/
def regs2 (x : Reg) (a : Byte) (y : Reg) (b : Byte) : State :=
  (State.reset.writeV x a).writeV y b

/-! ## Well-formedness: the one check refuses the ill-formed term -/

theorem test_wf_refuses_sixteen_rows : (Instr.drw 0 1 16).wf = false := by decide
theorem test_wf_takes_fifteen_rows : (Instr.drw 0 1 15).wf = true := by decide

/-! ## Decoding: words written out bit by bit from the formats of 30_encoding.md R111 and R118 -/

theorem test_decode_control :
    decode 0b0000000011100000 = .ok .cls ∧ decode 0b0000000011101110 = .ok .ret := by decide

theorem test_decode_addresses :
    decode 0b0001_1010_1011_1100 = .ok (.jp 0xABC) ∧
    decode 0b0010_1111_1111_1111 = .ok (.call 0xFFF) ∧
    decode 0b1010_0001_0010_0011 = .ok (.ldI 0x123) ∧
    decode 0b1011_0001_0010_0011 = .ok (.jpV0 0x123) := by decide

theorem test_decode_immediates :
    decode 0b0011_1010_0111_1111 = .ok (.seImm 10 0x7F) ∧
    decode 0b0100_1010_0111_1111 = .ok (.sneImm 10 0x7F) ∧
    decode 0b0110_1111_0000_0001 = .ok (.ldImm 15 1) ∧
    decode 0b0111_0001_1111_1110 = .ok (.addImm 1 0xFE) ∧
    decode 0b1100_0011_1000_0001 = .ok (.rnd 3 0x81) := by decide

theorem test_decode_two_registers :
    decode 0b0101_0001_0010_0000 = .ok (.seReg 1 2) ∧
    decode 0b1001_1010_1011_0000 = .ok (.sneReg 10 11) ∧
    decode 0b1101_0000_0001_1111 = .ok (.drw 0 1 15) := by decide

theorem test_decode_arithmetic :
    decode 0b1000_0001_0010_0000 = .ok (.ldReg 1 2) ∧
    decode 0b1000_0001_0010_0001 = .ok (.orReg 1 2) ∧
    decode 0b1000_0001_0010_0010 = .ok (.andReg 1 2) ∧
    decode 0b1000_0001_0010_0011 = .ok (.xorReg 1 2) ∧
    decode 0b1000_1010_1011_0100 = .ok (.addReg 10 11) := by decide

theorem test_decode_arithmetic_more :
    decode 0b1000_0001_0010_0101 = .ok (.sub 1 2) ∧
    decode 0b1000_0001_0010_0110 = .ok (.shr 1 2) ∧
    decode 0b1000_0001_0010_0111 = .ok (.subn 1 2) ∧
    decode 0b1000_1010_1011_1110 = .ok (.shl 10 11) := by decide

theorem test_decode_keys_and_timers :
    decode 0b1110_0001_1001_1110 = .ok (.skp 1) ∧
    decode 0b1110_0001_1010_0001 = .ok (.sknp 1) ∧
    decode 0b1111_0001_0000_0111 = .ok (.ldVxDt 1) ∧
    decode 0b1111_0001_0000_1010 = .ok (.ldVxK 1) ∧
    decode 0b1111_0001_0001_0101 = .ok (.ldDtVx 1) ∧
    decode 0b1111_0001_0001_1000 = .ok (.ldStVx 1) := by decide

theorem test_decode_index_and_memory :
    decode 0b1111_0001_0001_1110 = .ok (.addI 1) ∧
    decode 0b1111_0001_0010_1001 = .ok (.ldF 1) ∧
    decode 0b1111_0001_0011_0011 = .ok (.ldB 1) ∧
    decode 0b1111_0001_0101_0101 = .ok (.stRegs 1) ∧
    decode 0b1111_1111_0110_0101 = .ok (.ldRegs 15) := by decide

/-- The unknown words of section 2.1, one or more for every rejecting clause of R121. -/
theorem test_decode_rejects :
    [0x0000, 0x01E0, 0x00E1, 0x0123, 0x5121, 0x8AB8, 0x8ABD, 0x8ABF, 0x9AB1, 0xE19F, 0xF100,
      0xF175].all (fun w : Word => decode w == .error (.unknownOpcode w)) = true := by decide

theorem test_decode_needs_two_bytes :
    decodeBytes [] = .error .tooShort ∧ decodeBytes [0x00] = .error .tooShort := by decide

/-- The host's numbering of the bits: bit 0 is the least significant bit of the word. -/
theorem test_decodeTableWord : decodeTableWord 16 0x6205 = some (.ldImm 2 5) := by decide

/-- Every row of R118 is the place its own instruction's word falls into, and no other row. -/
theorem test_rows_do_not_overlap :
    opcodeTable.all (fun r => (opcodeTable.filter (fun q => q.accepts r.pattern)) == [r]) = true := by
  decide

/-! ## Control flow (section 2.2; the PC is 0x200 where the vector's own is not said) -/

/-- CF1, CF2 -/
theorem test_jp : view (·.pc) (run 0x1FFF .reset) = some 0xFFF := by decide

/-- CF3 -/
theorem test_call :
    view (fun t => (t.stack[3], t.sp, t.pc)) (run 0x2400 { State.reset with pc := 0x2FE, sp := 3 })
      = some (0x300, 4, 0x400) := by decide

/-- CF4 -/
theorem test_call_overflow :
    view (fun t => (t.fault, t.halted, t.sp, t.pc))
      (run 0x2400 { State.reset with pc := 0x300, sp := 16 }) = some (1, true, 16, 0x300) := by
  decide

/-- CF5 -/
theorem test_ret :
    view (fun t => (t.sp, t.pc, t.stack[3]))
      (run 0x00EE { State.reset with pc := 0x400, sp := 4, stack := State.reset.stack.set 3 0x300 })
      = some (3, 0x300, 0x300) := by decide

/-- CF6 -/
theorem test_ret_underflow :
    view (fun t => (t.fault, t.halted, t.sp, t.pc)) (run 0x00EE .reset)
      = some (2, true, 0, 0x200) := by decide

/-- The model's one stop (log 5): there is no stack entry 17. -/
theorem test_call_illegal_sp :
    exec (.call 0x400) { State.reset with sp := 17 } = .fault .stackPointerIllegal := by rfl

/-- CF7 -/
theorem test_jpV0_no_reduction :
    view (·.pc) (run 0xBFFF (State.reset.writeV 0 0xFF)) = some 0x10FE := by decide

/-- CF8 -/
theorem test_jpV0_uses_v0 : view (·.pc) (run 0xB150 (regs2 0 0x10 1 0x99)) = some 0x160 := by decide

/-- CF9, CF10 -/
theorem test_seImm :
    view (·.pc) (run 0x3542 (State.reset.writeV 5 0x42)) = some 0x204 ∧
    view (·.pc) (run 0x3543 (State.reset.writeV 5 0x42)) = some 0x202 := by decide

/-- CF11, CF12 -/
theorem test_sneImm :
    view (·.pc) (run 0x4542 (State.reset.writeV 5 0x42)) = some 0x202 ∧
    view (·.pc) (run 0x4543 (State.reset.writeV 5 0x42)) = some 0x204 := by decide

/-- CF13, and the unequal case of R156 -/
theorem test_seReg :
    view (·.pc) (run 0x5330 (State.reset.writeV 3 9)) = some 0x204 ∧
    view (·.pc) (run 0x5120 (regs2 1 1 2 2)) = some 0x202 := by decide

/-- CF14, CF15 -/
theorem test_sneReg :
    view (·.pc) (run 0x9330 (State.reset.writeV 3 9)) = some 0x202 ∧
    view (·.pc) (run 0x9120 (regs2 1 1 2 2)) = some 0x204 := by decide

/-- CF16 -/
theorem test_skip_beyond_memory :
    view (·.pc) (run 0x3000 { State.reset with pc := 0xFFE }) = some 0x1002 := by decide

/-! ## Load, arithmetic, logic (section 2.3) -/

/-- A1 -/
theorem test_ldImm_vf :
    view (fun t => (t.readV VF, t.pc)) (run 0x6F01 (State.reset.writeV VF 0x55))
      = some (1, 0x202) := by decide

/-- A2, A4 -/
theorem test_addImm :
    view (fun t => (t.readV 1, t.readV VF)) (run 0x7101 (State.reset.writeV 1 0xFF)) = some (0, 0) ∧
    view (fun t => t.readV VF) (run 0x7F03 (State.reset.writeV VF 0xFE)) = some 1 := by decide

/-- A5 -/
theorem test_ldReg :
    view (fun t => (t.readV 1, t.readV 2)) (run 0x8120 (regs2 1 0x12 2 0x34))
      = some (0x34, 0x34) := by decide

/-- A6 -/
theorem test_orReg :
    view (fun t => (t.readV 1, t.readV VF)) (run 0x8121 ((regs2 1 0x0F 2 0xF0).writeV VF 1))
      = some (0xFF, 1) := by decide

/-- A7 -/
theorem test_andReg :
    view (fun t => t.readV 1) (run 0x8122 (regs2 1 0x3C 2 0x0F)) = some 0x0C := by decide

/-- A8, A9 -/
theorem test_xorReg :
    view (fun t => t.readV 1) (run 0x8123 (regs2 1 0xFF 2 0x0F)) = some 0xF0 ∧
    view (fun t => t.readV 1) (run 0x8113 (State.reset.writeV 1 0xA5)) = some 0 := by decide

/-- A12, A13: the two sides of 255 -/
theorem test_addReg_carry :
    view (fun t => (t.readV 1, t.readV VF)) (run 0x8124 (regs2 1 0x64 2 0x9B)) = some (0xFF, 0) ∧
    view (fun t => (t.readV 1, t.readV VF)) (run 0x8124 (regs2 1 0x64 2 0x9C)) = some (0, 1) := by
  decide

/-- A15, A16: VF as destination and as operand -/
theorem test_addReg_vf :
    view (fun t => t.readV VF) (run 0x8FE4 (regs2 VF 0xF0 14 0x20)) = some 0x10 ∧
    view (fun t => (t.readV 1, t.readV VF)) (run 0x81F4 (regs2 1 0x10 VF 1)) = some (0x11, 0) := by
  decide

/-- A17, A19: equal operands leave VF = 0 -/
theorem test_sub :
    view (fun t => (t.readV 1, t.readV VF)) (run 0x8125 (regs2 1 5 2 3)) = some (2, 1) ∧
    view (fun t => (t.readV 1, t.readV VF)) (run 0x8125 (regs2 1 7 2 7)) = some (0, 0) := by decide

/-- A18, A22 -/
theorem test_sub_borrow :
    view (fun t => (t.readV 1, t.readV VF)) (run 0x8125 (regs2 1 3 2 5)) = some (0xFE, 0) ∧
    view (fun t => t.readV VF) (run 0x8FE5 (regs2 VF 2 14 3)) = some 0xFF := by decide

/-- A23, A27 -/
theorem test_shr :
    view (fun t => (t.readV 3, t.readV VF, t.readV 4)) (run 0x8346 (regs2 3 5 4 0xFF))
      = some (2, 1, 0xFF) ∧
    view (fun t => t.readV VF) (run 0x8F06 (State.reset.writeV VF 3)) = some 1 := by decide

/-- A29, A30 -/
theorem test_subn :
    view (fun t => (t.readV 1, t.readV VF)) (run 0x8127 (regs2 1 3 2 5)) = some (2, 1) ∧
    view (fun t => (t.readV 1, t.readV VF)) (run 0x8127 (regs2 1 5 2 3)) = some (0xFE, 0) := by decide

/-- A33, A36 -/
theorem test_shl :
    view (fun t => (t.readV 3, t.readV VF)) (run 0x830E (State.reset.writeV 3 0x81)) = some (2, 1) ∧
    view (fun t => (t.readV 3, t.readV VF, t.readV 4)) (run 0x834E (regs2 3 0x40 4 1))
      = some (0x80, 0, 1) := by decide

/-- A38 -/
theorem test_ldI : view (fun t => (t.i, t.pc)) (run 0xAFFF .reset) = some (0xFFF, 0x202) := by decide

/-- A39, A41 -/
theorem test_rnd :
    view (fun t => t.readV 3) (runRand 0xC30F 0xA7 .reset) = some 7 ∧
    view (fun t => t.readV 3) (runRand 0xC3FF 0x5A .reset) = some 0x5A := by decide

/-- A40: any random byte, the free one included -/
theorem test_rnd_mask_zero :
    view (fun t => (t.readV 3, t.pc)) (exec (.rnd 3 0) .reset) = some (0, 0x202) := by
  simp only [exec, execRnd, view, State.readV_advance, State.readV_drew, State.readV_writeV_same]
  simp [State.reset]

/-- A42, A43 -/
theorem test_addI :
    view (fun t => (t.i, t.readV VF)) (run 0xF21E { State.reset.writeV 2 1 with i := 0xFFF })
      = some (0x1000, 0) ∧
    view (fun t => t.i) (run 0xF21E { State.reset.writeV 2 1 with i := 0xFFFF }) = some 0 := by decide

/-- A46, A47: no masking -/
theorem test_ldF :
    view (fun t => t.i) (run 0xF029 (State.reset.writeV 0 0xFF)) = some 0x4FB ∧
    view (fun t => t.i) (run 0xF029 (State.reset.writeV 0 0x10)) = some 0x50 := by decide

/-! ## Display (section 2.4): bit c of a row is the pixel of column c -/

/-- DS12 -/
theorem test_cls :
    view (fun t => (t.fb[0], t.redraw, t.pc)) (run 0x00E0 { State.reset with fb := .replicate 32 7 })
      = some (0, true, 0x202) := by decide

/-- DS3: columns 60 to 63 and 0 to 3 of row 31 -/
theorem test_drw_wraps :
    view (fun t => (t.fb[31], t.readV VF, t.redraw))
      (run 0xD011 (poke 0x300 0xFF { regs2 0 60 1 31 with i := 0x300 }))
      = some (0xF00000000000000F, 0, true) := by decide

/-- DS2 -/
theorem test_drw_collides :
    view (fun t => (t.fb[0], t.readV VF)) (run 0xD011 (poke 0x300 0xFF
      { State.reset with i := 0x300, fb := State.reset.fb.set 0 0x08 })) = some (0xF7, 1) := by decide

/-- DS7 -/
theorem test_drw_no_rows :
    view (fun t => (t.readV VF, t.redraw, t.halted, t.pc))
      (run 0xD010 { State.reset.writeV VF 1 with i := 0xFFFF })
      = some (0, false, false, 0x202) := by decide

/-- DS9 -/
theorem test_drw_out_of_range :
    view (fun t => (t.fault, t.readV VF, t.pc))
      (run 0xD012 { State.reset.writeV VF 1 with i := 0xFFF }) = some (3, 1, 0x200) := by decide

/-! ## Keys and timers (section 2.5) -/

/-- K1, K5 -/
theorem test_skp :
    view (·.pc) (run 0xE49E { State.reset.writeV 4 5 with keys := 0x20 }) = some 0x204 ∧
    view (·.pc) (run 0xE49E { State.reset.writeV 4 0x1A with keys := 0x400 }) = some 0x204 := by
  decide

/-- K3, K4 -/
theorem test_sknp :
    view (·.pc) (run 0xE4A1 { State.reset.writeV 4 5 with keys := 0x20 }) = some 0x202 ∧
    view (·.pc) (run 0xE4A1 { State.reset.writeV 4 5 with keys := 0xFFDF }) = some 0x204 := by decide

/-- K6, K7 -/
theorem test_ldVxK :
    view (·.pc) (run 0xF10A { State.reset with pc := 0x206 }) = some 0x206 ∧
    view (fun t => (t.readV 1, t.pc)) (run 0xF10A { State.reset with pc := 0x206, keys := 0x120 })
      = some (5, 0x208) := by decide

/-- K10 -/
theorem test_ldVxDt :
    view (fun t => (t.readV 3, t.dt)) (run 0xF307 { State.reset with dt := 0x2A })
      = some (0x2A, 0x2A) := by decide

/-- K11 -/
theorem test_ldDtVx :
    view (fun t => t.dt) (run 0xF015 (State.reset.writeV 0 0x3C)) = some 0x3C := by decide

/-- K12 -/
theorem test_ldStVx :
    view (fun t => (t.st, t.soundActive)) (run 0xF018 (State.reset.writeV 0 3))
      = some (3, true) := by decide

/-- K14, K16 -/
theorem test_timerTick :
    view (fun t => (t.dt, t.st, t.env.out, t.soundActive))
      (event .timerTick { State.reset with st := 1 }) = some (0, 0, some (.beep true), false) ∧
    view (fun t => (t.dt, t.st, t.env.out)) (event .timerTick { State.reset with dt := 255, st := 255 })
      = some (254, 254, some (.beep true)) := by decide

/-- K15, K17 -/
theorem test_timerTick_stays_at_zero :
    view (fun t => (t.dt, t.st, t.env.out)) (event .timerTick .reset)
      = some (0, 0, some (.beep false)) ∧
    view (fun t => (t.dt, t.halted, t.fault))
      (event .timerTick { State.reset with dt := 5, halted := true, fault := 1 })
      = some (4, true, 1) := by decide

/-- K18, and R48 -/
theorem test_ack_and_keys :
    view (·.redraw) (event .redrawAck { State.reset with redraw := true }) = some false ∧
    view (·.keys) (event (.setKeys 0x120) .reset) = some 0x120 := by decide

/-- K19 -/
theorem test_halted_cycle :
    view (fun t => (t.pc, t.halted)) (step { State.reset with pc := 0x300, halted := true, fault := 1 })
      = some (0x300, true) := by decide

/-! ## Memory instructions (section 2.6) -/

/-- M1, M6 -/
theorem test_ldB :
    view (bytes 0x300 3) (run 0xF033 { State.reset.writeV 0 255 with i := 0x300 })
      = some (some [2, 5, 5]) ∧
    view (bytes 0xFFD 3) (run 0xF033 { State.reset.writeV 0 128 with i := 0xFFD })
      = some (some [1, 2, 8]) := by decide

/-- M7 -/
theorem test_ldB_out_of_range :
    view (fun t => (t.fault, bytes 0xFFE 2 t, t.pc))
      (run 0xF033 { State.reset.writeV 0 128 with i := 0xFFE })
      = some (3, some [0, 0], 0x200) := by decide

/-- M8 -/
theorem test_stRegs :
    view (fun t => (bytes 0x400 4 t, t.i))
      (run 0xF255 { (regs2 0 0x11 1 0x22).writeV 2 0x33 with i := 0x400 })
      = some (some [0x11, 0x22, 0x33, 0], 0x400) := by decide

/-- M15 and M14 -/
theorem test_stRegs_edges :
    view (bytes 0 2) (run 0xF055 (State.reset.writeV 0 0xAA)) = some (some [0xAA, 0x90]) ∧
    view (fun t => (t.fault, bytes 0 1 t)) (run 0xF155 { State.reset.writeV 0 9 with i := 0xFFFF })
      = some (3, some [0xF0]) := by decide

/-- M12 -/
theorem test_ldRegs :
    view (fun t => (t.readV 0, t.readV 1, t.readV 2, t.readV 3, t.i)) (run 0xF265
      (poke 0x400 0x11 (poke 0x401 0x22 (poke 0x402 0x33 { State.reset.writeV 3 0x77 with i := 0x400 }))))
      = some (0x11, 0x22, 0x33, 0x77, 0x400) := by decide

/-- M13 -/
theorem test_ldRegs_out_of_range :
    view (fun t => (t.fault, t.readV 0)) (run 0xF065 { State.reset.writeV 0 9 with i := 0x1000 })
      = some (3, 9) := by decide

/-! ## Faults, unknown opcodes, Boot (section 2.7) -/

/-- X1 -/
theorem test_unknown :
    view (fun t => (t.env.out, t.pc, t.halted)) (run 0xFFFF .reset)
      = some (some (.unknown 0xFFFF 0x200), 0x202, false) := by decide

/-- X2 -/
theorem test_fetch_range :
    view (fun t => (t.fault, t.halted, t.pc)) (step { State.reset with pc := 0xFFF })
      = some (4, true, 0xFFF) := by decide

/-- X6 -/
theorem test_boot :
    view (fun t => (bytes 0x200 3 t, bytes 0x04F 2 t, t.pc))
      (event (.boot [0x12, 0x00]) { State.reset with pc := 0x300, halted := true, fault := 3 })
      = some (some [0x12, 0x00, 0x00], some [0x80, 0x00], 0x200) := by decide

/-- CF18: a fetch at an odd address, from the high byte -/
theorem test_fetch_odd :
    view (fun t => (t.readV 0, t.pc)) (run 0x6007 { State.reset with pc := 0x201 })
      = some (7, 0x203) := by decide

/-- A stored background byte is not listed: equal memories are equal data (log 7). -/
theorem test_memory_canonical :
    (poke 0x300 0 (poke 0x300 5 .reset)).mem = [] ∧ (poke 0 0xF0 (poke 0 1 .reset)).mem = [] ∧
    (poke 0x300 5 (poke 0x400 6 .reset)).mem = [(0x300, 5), (0x400, 6)] := by decide

/-! ## Witnesses: a state and operands that meet the hypotheses of each statement

Where a statement has several clauses over one input, each clause has its witness, at the boundary
where the clauses meet. -/

/-- A state with a fault taken. -/
def haltedState : State := { State.reset with halted := true, fault := 3 }

/-- A state with one word placed at 0x200 and a Cycle pending after it was placed. -/
def placed (w : Nat) (s : State) : State := s.withFetchWord 16 w

theorem witness_DecodeOfEncodeIsIdentity :
    (Instr.drw 15 15 15).wf = true ∧ (Instr.drw 0 0 0).wf = true ∧ (Instr.jp 0xFFF).wf = true := by
  decide

theorem witness_DecodedWordEncodesBack :
    decode 0xDFFF = .ok (.drw 15 15 15) ∧ decode 0x8AB6 = .ok (.shr 10 11) := by decide

theorem witness_DecoderFollowsOpcodeTable :
    opcodeTable[0]? = some ⟨"00E0", "CLS", 0x00E0, 0xFFFF⟩ ∧
    opcodeTable[33]? = some ⟨"Fx65", "LD", 0xF065, 0xF0FF⟩ := by decide

theorem witness_FetchIsBigEndian :
    (poke 0xFFF 0x34 (poke 0xFFE 0x12 .reset)).memRead 0xFFE = some 0x12 ∧
    (poke 0xFFF 0x34 (poke 0xFFE 0x12 .reset)).memRead (0xFFE + 1) = some 0x34 := by decide

theorem witness_StepRunsDecodedInstruction_free_byte :
    let s := placed 0x6205 .reset
    s.halted = false ∧ s.memRead s.pc.toNat = some 0x62 ∧ s.memRead (s.pc.toNat + 1) = some 0x05 ∧
      decodeBytes [0x62, 0x05] = .ok (.ldImm 2 5, []) ∧ s.env.inputs = [] := by decide

theorem witness_StepRunsDecodedInstruction_given_byte :
    let s := (placed 0xC3FF .reset).withInputs [.cycle 0x5A]
    s.halted = false ∧ s.memRead s.pc.toNat = some 0xC3 ∧ s.memRead (s.pc.toNat + 1) = some 0xFF ∧
      decodeBytes [0xC3, 0xFF] = .ok (.rnd 3 0xFF, []) ∧ s.env.inputs = [.cycle 0x5A] := by decide

theorem witness_FetchBeyondMemoryHalts :
    let s := { State.reset with pc := 0xFFF }
    s.halted = false ∧ s.cycleNext ∧ 0xFFE < s.pc.toNat := ⟨by decide, Or.inl rfl, by decide⟩

theorem witness_UnknownOpcodeIsReportedAndSkipped :
    let s := (placed 0xFFFF .reset).withInputs [.cycle 0]
    s.halted = false ∧ s.cycleNext ∧ s.fetch16 s.pc.toNat = some 0xFFFF ∧
      decode 0xFFFF = .error (.unknownOpcode 0xFFFF) :=
  ⟨by decide, Or.inr ⟨0, [], rfl⟩, by decide, by decide⟩

theorem witness_HaltedCycleChangesNothing :
    haltedState.halted = true ∧ haltedState.cycleNext := ⟨rfl, Or.inl rfl⟩

/-- Both ends of the disjunction: a Cycle keeps the halt, a Boot ends it. -/
theorem witness_OnlyBootEndsAHalt :
    (∃ t, haltedState.halted = true ∧ step haltedState = .next t ∧ t.halted = true) ∧
    (∃ t, step (haltedState.withInputs [.boot []]) = .next t ∧ t.halted = false) :=
  ⟨⟨_, rfl, rfl, rfl⟩, ⟨_, rfl, rfl⟩⟩

theorem witness_PlacedWordIsTheNextInstruction :
    (Instr.drw 1 2 5).wf = true ∧ State.reset.pc.toNat ≤ 0xFFE ∧
      (0 : Nat) ≠ State.reset.pc.toNat ∧ (0 : Nat) ≠ State.reset.pc.toNat + 1 := by decide

/-- The legal ends of SP, and the two sides of each range. -/
theorem witness_InstructionsFaultExactlyAsListed :
    ({ State.reset with sp := 16 } : State).sp.toNat ≤ 16 ∧
    faultOf (.call 0) { State.reset with sp := 16 } = some .stackOverflow ∧
    faultOf (.call 0) { State.reset with sp := 15 } = none ∧
    faultOf .ret .reset = some .stackUnderflow ∧ faultOf .ret { State.reset with sp := 1 } = none ∧
    faultOf (.ldB 0) { State.reset with i := 0xFFE } = some .memRange ∧
    faultOf (.ldB 0) { State.reset with i := 0xFFD } = none ∧
    faultOf (.drw 0 0 0) { State.reset with i := 0xFFFF } = none ∧
    faultOf (.drw 0 0 1) { State.reset with i := 0x1000 } = some .memRange := by decide

theorem witness_faultOf_register_ranges :
    faultOf (.stRegs 15) { State.reset with i := 0xFF1 } = some .memRange ∧
    faultOf (.stRegs 15) { State.reset with i := 0xFF0 } = none ∧
    faultOf (.ldRegs 15) { State.reset with i := 0xFF1 } = some .memRange ∧
    faultOf (.ldRegs 15) { State.reset with i := 0xFF0 } = none := by decide

/-- A full stack of the largest legal return addresses. -/
def fullStack : State := { State.reset with sp := 16, stack := .replicate 16 0x1000 }

theorem fullStack_inv : fullStack.Inv where
  spLegal := by decide
  haltedIff := by decide
  faultLegal := by decide
  returnsLegal := by decide
  memCanonical := by decide

theorem haltedState_inv : haltedState.Inv where
  spLegal := by decide
  haltedIff := by decide
  faultLegal := by decide
  returnsLegal := by decide
  memCanonical := by decide

theorem witness_StepKeepsInvariant :
    fullStack.Inv ∧ (∃ t, step fullStack = .next t) ∧
    haltedState.Inv ∧ ∃ t, step haltedState = .next t :=
  ⟨fullStack_inv, ⟨_, rfl⟩, haltedState_inv, ⟨_, rfl⟩⟩

theorem witness_InvariantStatesAlwaysStep : fullStack.Inv ∧ haltedState.Inv :=
  ⟨fullStack_inv, haltedState_inv⟩

/-- BFFF with V[0] = 0xFF reaches the bound itself (CF7). -/
theorem witness_CompletedCycleLeavesPcAtMost10FE :
    let s := placed 0xBFFF (State.reset.writeV 0 0xFF)
    s.Inv ∧ s.halted = false ∧ s.cycleNext ∧
      ∃ t, step s = .next t ∧ t.halted = false ∧ t.pc.toNat = 0x10FE :=
  ⟨⟨by decide, by decide, by decide, by decide, by decide⟩, by decide, Or.inl (by decide), _, rfl,
    rfl, rfl⟩

theorem witness_OnlyCallAndReturnTouchTheStack :
    (∃ t, exec .ret fullStack = .next t) ∧ (∀ nnn, Instr.ret ≠ .call nnn) ∧
    (∃ t, exec (.jp 0x300) fullStack = .next t) ∧ (∀ nnn, Instr.jp 0x300 ≠ .call nnn) ∧
      Instr.jp 0x300 ≠ .ret :=
  ⟨⟨_, rfl⟩, nofun, ⟨_, rfl⟩, nofun, nofun⟩

theorem witness_OnlyIndexInstructionsWriteI :
    (∃ t, exec (.stRegs 2) .reset = .next t) ∧ (∀ nnn, Instr.stRegs 2 ≠ .ldI nnn) ∧
      (∀ x, Instr.stRegs 2 ≠ .addI x) ∧ (∀ x, Instr.stRegs 2 ≠ .ldF x) :=
  ⟨⟨_, rfl⟩, nofun, nofun, nofun⟩

/-- Both clauses, each at the last byte of its range. -/
theorem witness_OnlyBcdAndDumpWriteMemory :
    (∃ t, exec (.ldB 0) { State.reset.writeV 0 9 with i := 0xFFD } = .next t ∧
      t.memRead 0xFFF ≠ State.reset.memRead 0xFFF) ∧
    (∃ t, exec (.stRegs 1) { State.reset.writeV 1 9 with i := 0xFFE } = .next t ∧
      t.memRead 0xFFF ≠ State.reset.memRead 0xFFF) :=
  ⟨⟨_, rfl, by decide⟩, ⟨_, rfl, by decide⟩⟩

theorem witness_OnlyClearAndDrawWriteTheScreen :
    (∃ t, exec (.ldI 5) { State.reset with redraw := true } = .next t) ∧ Instr.ldI 5 ≠ .cls ∧
      (∀ x y n, Instr.ldI 5 ≠ .drw x y n) := ⟨⟨_, rfl⟩, nofun, nofun⟩

theorem witness_OnlyTimerMovesWriteTimers :
    (∃ t, exec (.ldVxDt 1) { State.reset with dt := 7 } = .next t) ∧
      (∀ x, Instr.ldVxDt 1 ≠ .ldDtVx x) ∧ (∀ x, Instr.ldVxDt 1 ≠ .ldStVx x) :=
  ⟨⟨_, rfl⟩, nofun, nofun⟩

/-- A flag writer leaves a third register; the register load leaves the one above its last. -/
theorem witness_RegisterWritesFollowTheListing :
    (∃ t, exec (.addReg 1 2) .reset = .next t) ∧ ¬ mayWriteV (.addReg 1 2) 3 ∧
    (∃ t, exec (.ldRegs 2) .reset = .next t) ∧ ¬ mayWriteV (.ldRegs 2) 3 :=
  ⟨⟨_, rfl⟩, by simp [mayWriteV, VF], ⟨_, rfl⟩, by simp [mayWriteV]⟩

theorem witness_RandomByteReachesOnlyRnd :
    (∀ x kk, Instr.ldImm 1 2 ≠ .rnd x kk) ∧ ∃ t, exec (.ldImm 1 2) .reset = .next t :=
  ⟨nofun, ⟨_, rfl⟩⟩

theorem witness_BootResetsAndLoadsTheRom :
    (haltedState.withInputs [.boot [0x12, 0x00]]).env.inputs = [.boot [0x12, 0x00]] := rfl

theorem witness_BootOfEmptyRomIsReset :
    (haltedState.withInputs [.boot []]).env = { State.reset.env with inputs := [.boot []] } := rfl

/-- Each timer at 0 and above 0. -/
theorem witness_TimerTickCountsDownAndBeeps :
    let s := { State.reset with dt := 1 }.withInputs [.timerTick]
    let u := { State.reset with st := 255 }.withInputs [.timerTick]
    s.env.inputs = [.timerTick] ∧ 0 < s.dt.toNat ∧ s.st.toNat = 0 ∧
    u.env.inputs = [.timerTick] ∧ u.dt.toNat = 0 ∧ 0 < u.st.toNat := by decide

theorem witness_KeysAndAckWriteOnlyTheirRegister :
    (State.reset.withInputs [.setKeys 0xFFFF]).env.inputs = [.setKeys 0xFFFF] ∧
    (State.reset.withInputs [.redrawAck]).env.inputs = [.redrawAck] := ⟨rfl, rfl⟩

/-- Two ticks pending (k = 1), and the same behind the Cycle of an Fx18. -/
theorem witness_TicksRunTheTimersDown :
    let s := State.reset.withInputs (List.replicate 2 .timerTick)
    let u := (placed 0xF018 (State.reset.writeV 0 1)).withInputs (.cycle 0 :: List.replicate 2 .timerTick)
    s.env.inputs = List.replicate (1 + 1) .timerTick ++ [] ∧
    u.halted = false ∧ u.fetch16 u.pc.toNat = some (encode (.ldStVx 0)) ∧
    u.env.inputs = .cycle 0 :: (List.replicate (1 + 1) .timerTick ++ []) := by decide

/-- All four events coincide; the Cycle is an Fx15 that writes 5. -/
theorem witness_CoincidingTickFollowsTheCycle :
    let s := (placed 0xF015 (State.reset.writeV 0 5)).withInputs
      (coincident (some 0x20) true (some 0) true)
    s.env.inputs = coincident (some 0x20) true (some 0) true ∧ s.halted = false ∧
      s.fetch16 s.pc.toNat = some (encode (.ldDtVx 0)) ∧
      ∃ b t u, runSteps 2 s = .next b ∧ step b = .next t ∧ step t = .next u :=
  ⟨by decide, by decide, by decide, _, _, _, rfl, rfl, rfl⟩

/-- Neither SetKeys nor RedrawAck; one witness for each instruction that the clauses name. -/
theorem witness_CoincidingTickFollowsTheCycle_instructions :
    let s := fun w => (placed w .reset).withInputs (coincident none false (some 0) true)
    (∀ w, (s w).env.inputs = coincident none false (some 0) true) ∧
    (s 0xF107).fetch16 0x200 = some (encode (.ldVxDt 1)) ∧
    (s 0xF118).fetch16 0x200 = some (encode (.ldStVx 1)) ∧
    (s 0xE19E).fetch16 0x200 = some (encode (.skp 1)) ∧
    (s 0xE1A1).fetch16 0x200 = some (encode (.sknp 1)) ∧
    (s 0xF10A).fetch16 0x200 = some (encode (.ldVxK 1)) ∧
    (s 0x00E0).fetch16 0x200 = some (encode .cls) :=
  ⟨fun _ => rfl, by decide, by decide, by decide, by decide, by decide, by decide⟩

/-- SP = 15 is the last that pushes, SP = 16 faults. -/
theorem witness_CallPushesTheNextAddress :
    ({ State.reset with sp := 15 } : State).sp.toNat < 16 ∧ fullStack.sp.toNat = 16 := by decide

/-- SP = 1 and SP = 16 pop, SP = 0 faults. -/
theorem witness_ReturnPopsTheTarget :
    ({ State.reset with sp := 1 } : State).sp.toNat = (0 : Fin 16).val + 1 ∧
    fullStack.sp.toNat = (15 : Fin 16).val + 1 ∧ State.reset.sp.toNat = 0 := by decide

theorem witness_CallThenReturnRestoresPcAndSp :
    ({ State.reset with sp := 15 } : State).sp.toNat < 16 := by decide

/-- The shared skip clauses (`skippedIf`) each have their witness: equal and unequal operands. -/
theorem witness_CompareAndSkip :
    (State.reset.writeV 5 0x42).readV 5 = 0x42 ∧ (State.reset.writeV 5 0x42).readV 5 ≠ 0x43 := by
  decide

theorem witness_FinishedProgramStaysPut :
    (placed 0x1200 .reset).finished ∧ (placed 0x1200 .reset).cycleNext :=
  ⟨⟨rfl, 0x200, rfl, rfl⟩, Or.inl rfl⟩

/-- The carry clauses of `wroteFlagged` at 255 and 256, for a destination that is not VF. -/
theorem witness_AddSetsTheCarry :
    ¬ ((regs2 1 0x64 2 0x9B).readV 1).toNat + ((regs2 1 0x64 2 0x9B).readV 2).toNat > 255 ∧
    ((regs2 1 0x64 2 0x9C).readV 1).toNat + ((regs2 1 0x64 2 0x9C).readV 2).toNat > 255 ∧
    (1 : Reg) ≠ VF ∧ (3 : Reg) ≠ 1 ∧ (3 : Reg) ≠ VF := by decide

/-- The minuend equal to the other operand and one above it. -/
theorem witness_SubtractSetsStrictlyGreater :
    ¬ ((regs2 1 7 2 7).readV 1).toNat > ((regs2 1 7 2 7).readV 2).toNat ∧
    ((regs2 1 8 2 7).readV 1).toNat > ((regs2 1 8 2 7).readV 2).toNat := by decide

/-- Bit 0 set and clear, bit 7 set and clear. -/
theorem witness_ShiftsMoveOneBit :
    ((State.reset.writeV 3 0x7F).readV 3).toNat % 2 = 1 ∧
    ¬ ((State.reset.writeV 3 0x80).readV 3).toNat % 2 = 1 ∧
    128 ≤ ((State.reset.writeV 3 0x80).readV 3).toNat ∧
    ¬ 128 ≤ ((State.reset.writeV 3 0x7F).readV 3).toNat := by decide

/-- The byte written down; without one the clause about it is not used. -/
theorem witness_RandomIsMasked : (State.reset.accept (some 0xA7)).env.rand = some 0xA7 := rfl

/-- No row with any I, and a last row at 0xFFF. -/
theorem witness_DrawTogglesTheSprite :
    (Instr.drw 1 2 0).wf = true ∧ ((0 : Nat) = 0 ∨ (0xFFFF : Word).toNat + 0 - 1 ≤ 0xFFF) ∧
    (Instr.drw 1 2 15).wf = true ∧ (0xFF1 : Word).toNat + 15 - 1 ≤ 0xFFF := by decide

/-- A covered pixel that is on, one that is off, and a pixel that is not covered. -/
theorem witness_spriteCovers :
    let s := poke 0x300 0xC0 { State.reset with i := 0x300, fb := State.reset.fb.set 0 1 }
    (spriteCovers s 0 1 1 0 0 ∧ s.pixel 0 0 = true) ∧
    (spriteCovers s 0 1 1 0 1 ∧ s.pixel 0 1 = false) ∧ ¬ spriteCovers s 0 1 1 1 0 := by
  refine ⟨⟨⟨0, 0, 0xC0, by decide⟩, by decide⟩, ⟨⟨0, 1, 0xC0, by decide⟩, by decide⟩, ?_⟩
  rintro ⟨row, bit, b, hrow, -, -, -, hr, -⟩
  have : row = 0 := by omega
  subst this
  exact absurd hr (by decide)

theorem witness_DrawingTwiceRestoresTheScreen :
    (Instr.drw 0 1 15).wf = true ∧ (0 : Reg) ≠ VF ∧ (1 : Reg) ≠ VF ∧
      (0xFF1 : Word).toNat + 15 - 1 ≤ 0xFFF := by decide

theorem witness_GlyphAddressPointsAtTheGlyph :
    (15 : Byte).toNat < 16 ∧ (0 : Byte).toNat < 16 ∧
      ∃ t, exec (.ldF 0) ((State.reset.boot [1, 2]).writeV 0 15) = .next t :=
  ⟨by decide, by decide, _, rfl⟩

/-- Key 0xA pressed and not pressed, tested through V[4] = 0x1A (K5). -/
theorem witness_KeySkipsFollowTheLatch :
    ({ State.reset.writeV 4 0x1A with keys := 0x400 } : State).keys.getLsbD
      (((State.reset.writeV 4 0x1A).readV 4).toNat % 16) = true ∧
    State.reset.keys.getLsbD (((State.reset.writeV 4 0x1A).readV 4).toNat % 16) = false := by decide

theorem witness_WaitForKeyStoresTheLowest :
    State.reset.keys = 0 ∧ ({ State.reset with keys := 0x8000 } : State).keys ≠ 0 := by decide

/-- The last address that fits, and the addresses just outside the stored bytes. -/
theorem witness_BcdStoresThreeDigits :
    let s := { State.reset with i := 0xFFD }
    s.i.toNat ≤ 0xFFD ∧ 0xFFC < s.effAddr 0 ∧ s.effAddr 2 < 0x1000 := by decide

theorem witness_RegisterDumpStoresEachRegister :
    let s := { State.reset with i := 0xFF0 }
    s.i.toNat + (15 : Reg).toNat ≤ 0xFFF ∧ (15 : Reg).toNat ≤ (15 : Reg).toNat ∧
      0xFEF < s.effAddr 0 ∧ s.effAddr (15 : Reg).toNat < 0x1000 := by decide

theorem witness_RegisterLoadReadsEachRegister :
    ({ State.reset with i := 0xFFD } : State).i.toNat + (2 : Reg).toNat ≤ 0xFFF ∧
      (2 : Reg).toNat ≤ (2 : Reg).toNat ∧ (2 : Reg).toNat < (3 : Reg).toNat := by decide

/-- Each clause at the first I that is out of range for it. -/
theorem witness_OutOfRangeAccessWritesNothing :
    0xFFF < (0xFFE : Word).toNat + 2 ∧ 0xFFF < (0xFF1 : Word).toNat + (15 : Reg).toNat ∧
    0 < 15 ∧ 0xFFF < (0xFF2 : Word).toNat + 15 - 1 := by decide

/-- The store of P6: F155 at 0x206 writes 12 0A at 0x208, and the next Cycle jumps. -/
theorem witness_StoreIsSeenByTheNextFetch_dump :
    let s := placed 0xF155 { regs2 0 0x12 1 0x0A with pc := 0x206, i := 0x208 }
    s.halted = false ∧ s.env.inputs = [] ∧ (Instr.stRegs 1).wf = true ∧ s.sp.toNat ≤ 16 ∧
      s.fetch16 s.pc.toNat = some (encode (.stRegs 1)) ∧ faultOf (.stRegs 1) s = none ∧
      byteAfter (.stRegs 1) s 0x208 = some 0x12 ∧ byteAfter (.stRegs 1) s (0x208 + 1) = some 0x0A := by
  decide

/-- Fx33 at 0x200 that stores its last digit over the first byte of the next word, both Cycles
pending: one byte of the next word is stored and the other is from before. -/
theorem witness_StoreIsSeenByTheNextFetch_digits :
    let s := (placed 0xF033 { State.reset.writeV 0 255 with i := 0x200 }).withInputs
      [.cycle 0, .cycle 1]
    s.halted = false ∧ s.env.inputs = [.cycle 0, .cycle 1] ∧ s.sp.toNat ≤ 16 ∧
      s.fetch16 s.pc.toNat = some (encode (.ldB 0)) ∧ faultOf (.ldB 0) s = none ∧
      byteAfter (.ldB 0) s 0x202 = some 5 ∧ byteAfter (.ldB 0) s (0x202 + 1) = some 0 := by decide

end Sys2Proof.Tests
end

section
/-! PROOFS. What every instruction and every step can do, said once, and the statements of
10_state.md that follow from it. -/

namespace Sys2Proof.Machine

/-! ## Targets of PC, as numbers -/

/-- The ordinary advance from an address that can be fetched from does not wrap. -/
theorem toNat_add_two {w : Word} (h : w.toNat ≤ 0xFFE) : (w + 2).toNat = w.toNat + 2 := by
  simp only [BitVec.toNat_add, BitVec.ofNat_eq_ofNat, BitVec.toNat_ofNat]
  omega

/-- So the ordinary advance stays within the bound of 10_state.md R37. -/
theorem toNat_add_two_le {w : Word} (h : w.toNat ≤ 0xFFE) : (w + 2).toNat ≤ 0x10FE := by
  rw [toNat_add_two h]
  omega

/-- A 12-bit target lies inside MEM. -/
theorem zextAddr_toNat_le (a : Addr12) : (zextAddr a).toNat ≤ 0xFFF := by
  have ha := a.isLt
  simp only [zextAddr, BitVec.toNat_setWidth]
  omega

/-- The largest target of Bnnn is 0xFF + 0xFFF. -/
theorem toNat_zext16_add_zextAddr_le (b : Byte) (a : Addr12) :
    (zext16 b + zextAddr a).toNat ≤ 0x10FE := by
  have hb := b.isLt
  have ha := a.isLt
  simp only [zext16, zextAddr, BitVec.toNat_add, BitVec.toNat_setWidth]
  omega

/-! ## What an instruction can do -/

/-- The instruction is one of the three that 10_state.md R34 lists as writing I. -/
def writesIndex (i : Instr) : Prop :=
  (∃ nnn, i = .ldI nnn) ∨ (∃ x, i = .addI x) ∨ ∃ x, i = .ldF x

/-- The instruction is one of the two that 10_state.md R46 lists as writing pixels. -/
def writesScreen (i : Instr) : Prop := i = .cls ∨ ∃ x y n, i = .drw x y n

/-- The shapes of a next state that an instruction `i` answers from `s`: each names the fields that
are written, and what is known of the values. Every field not named is that of `s`. -/
inductive ExecEffect (i : Instr) (s : State) : State → Prop
  /-- A fatal fault. -/
  | halted (c : FaultCode) : ExecEffect i s (s.halt c)
  /-- A jump, a skip, or the wait of Fx0A: PC alone. -/
  | moved (w : Word) (hw : s.pc.toNat ≤ 0xFFE → w.toNat ≤ 0x10FE) :
      ExecEffect i s { s with pc := w }
  /-- 2nnn with an entry free. -/
  | called (nnn : Addr12) (hi : i = .call nnn) (h : s.sp.toNat < 16) : ExecEffect i s
      { s with stack := s.stack.set s.sp.toNat s.npc h, sp := s.sp + 1, pc := zextAddr nnn }
  /-- 00EE with an entry in use. -/
  | returned (k : Fin 16) (hi : i = .ret) (hk : s.sp.toNat = k.val + 1)
      (hsp : (s.sp - 1).toNat = k.val) :
      ExecEffect i s { s with sp := s.sp - 1, pc := s.stack[k] }
  /-- General registers among those listed for the instruction. -/
  | wroteRegs (v : Vector Byte 16)
      (hv : ∀ z, ¬ mayWriteV i z → State.readV { s with v := v } z = s.readV z) :
      ExecEffect i s (State.advance { s with v := v })
  /-- The same with a random byte drawn. -/
  | wroteRandom (v : Vector Byte 16)
      (hv : ∀ z, ¬ mayWriteV i z → State.readV { s with v := v } z = s.readV z) :
      ExecEffect i s (State.drew { s with v := v }).advance
  | wroteIndex (w : Word) (hi : writesIndex i) : ExecEffect i s (State.advance { s with i := w })
  | wroteDelay (x : Reg) (b : Byte) (hi : i = .ldDtVx x) :
      ExecEffect i s (State.advance { s with dt := b })
  | wroteSound (x : Reg) (b : Byte) (hi : i = .ldStVx x) :
      ExecEffect i s (State.advance { s with st := b })
  /-- The screen, with the registers that the instruction writes beside it. -/
  | wroteScreen (v : Vector Byte 16) (fb : Vector PixelRow 32) (redraw : Bool)
      (hi : writesScreen i)
      (hv : ∀ z, ¬ mayWriteV i z → State.readV { s with v := v } z = s.readV z)
      (hr : s.redraw = true → redraw = true) :
      ExecEffect i s (State.advance { s with v := v, fb := fb, redraw := redraw })
  /-- Memory, in canonical form if it was before. -/
  | wroteMemory (l : List Host.Cell)
      (hl : Memory.wf s.env.font s.mem = true → Memory.wf s.env.font l = true) :
      ExecEffect i s (State.advance { s with mem := l })

section effects
variable {i : Instr} {s : State} {x : Reg}

theorem ExecEffect.jump (nnn : Addr12) : ExecEffect i s { s with pc := zextAddr nnn } :=
  .moved _ fun _ => (zextAddr_toNat_le nnn).trans (by decide)

theorem ExecEffect.skip (c : Bool) : ExecEffect i s (s.skipIf c) := by
  refine .moved (s.skipIf c).pc fun hpc => ?_
  cases c with
  | false => exact toNat_add_two_le hpc
  | true =>
    show (s.pc + 2 + 2).toNat ≤ _
    rw [BitVec.toNat_add, toNat_add_two hpc]
    simp only [BitVec.ofNat_eq_ofNat, BitVec.toNat_ofNat]
    omega

/-- The wait of Fx0A leaves the state as it is. -/
theorem ExecEffect.wait : ExecEffect i s s := .moved s.pc fun h => by omega

theorem ExecEffect.writeV (b : Byte) (hx : mayWriteV i x) :
    ExecEffect i s (s.writeV x b).advance :=
  .wroteRegs _ fun _ hz => s.readV_writeV_other b fun e => hz (e ▸ hx)

theorem ExecEffect.finishFlagged (p : Byte × Byte) (hx : mayWriteV i x) (hf : mayWriteV i VF) :
    ExecEffect i s (s.finishFlagged x p) := by
  obtain ⟨-, -, hother, -⟩ := s.finishFlagged_spec x p
  exact .wroteRegs (s.finishFlagged x p).v fun z hz =>
    hother z (fun e => hz (e ▸ hx)) (fun e => hz (e ▸ hf))

/-- Plotting after VF is cleared: the sprite of Dxyn. -/
theorem ExecEffect.plot (ps : List (Fin 32 × Fin 64)) (hi : writesScreen i)
    (hf : mayWriteV i VF) : ExecEffect i s ((s.writeV VF 0).plotAll ps).advance := by
  obtain ⟨hframe, hredraw, hregs⟩ := (s.writeV VF 0).plotAll_frame ps
  rw [hframe]
  refine .wroteScreen _ _ _ hi (fun z hz => ?_) (fun h => hredraw.2 (.inl h))
  have hne : z ≠ VF := fun e => hz (e ▸ hf)
  exact (hregs z hne).trans (s.readV_writeV_other 0 hne)

theorem ExecEffect.store {a : Nat} {bs : List Byte} {u : State}
    (hu : s.writeBytes a bs = some u) : ExecEffect i s u.advance := by
  obtain ⟨hframe, -, -, hwf⟩ := (s.writeBytes_spec a bs).2 u hu
  rw [congrArg (·.env.font) hframe] at hwf
  rw [hframe]
  exact .wroteMemory _ hwf

/-- The register load of Fx65 reaches no register above V[x]. -/
theorem ExecEffect.load {bs : List Byte} (hlen : bs.length = x.toNat + 1) :
    ExecEffect (.ldRegs x) s (s.writeRegsFrom 0 bs).advance := by
  obtain ⟨hframe, hregs⟩ := s.writeRegsFrom_spec 0 bs
  rw [hframe]
  refine .wroteRegs _ fun z hz => ?_
  have hnone : bs[z.toNat - 0]? = none := by
    have : ¬ z.toNat ≤ x.toNat := hz
    exact List.getElem?_eq_none (by omega)
  refine (State.readV_congr rfl z).trans ((hregs z).trans ?_)
  rw [hnone, if_pos (Nat.zero_le _)]
  rfl

end effects

/-- Inversion of `exec`: a next state of one of the shapes, or the model's one stop, for an SP above
16 (log 5). -/
theorem exec_cases (i : Instr) (s : State) :
    (∃ t, exec i s = .next t ∧ ExecEffect i s t) ∨
    (16 < s.sp.toNat ∧ exec i s = .fault .stackPointerIllegal) := by
  cases i with
  | cls => exact .inl ⟨_, rfl, .wroteScreen s.v _ true (.inl rfl) (fun _ _ => rfl) (fun _ => rfl)⟩
  | ret =>
    rcases exec_ret_cases s with ⟨-, h⟩ | ⟨k, hk, hsp, h⟩ | h
    · exact .inl ⟨_, h, .halted _⟩
    · exact .inl ⟨_, h, .returned k rfl hk hsp⟩
    · exact .inr h
  | call nnn =>
    rcases exec_call_cases s nnn with ⟨-, h⟩ | ⟨hsp, h⟩ | h
    · exact .inl ⟨_, h, .halted _⟩
    · exact .inl ⟨_, h, .called nnn rfl hsp⟩
    · exact .inr h
  | jp nnn => exact .inl ⟨_, rfl, .jump nnn⟩
  | jpV0 nnn => exact .inl ⟨_, rfl, .moved _ fun _ => toNat_zext16_add_zextAddr_le _ nnn⟩
  | seImm x kk => exact .inl ⟨_, rfl, .skip _⟩
  | sneImm x kk => exact .inl ⟨_, rfl, .skip _⟩
  | seReg x y => exact .inl ⟨_, rfl, .skip _⟩
  | sneReg x y => exact .inl ⟨_, rfl, .skip _⟩
  | skp x => exact .inl ⟨_, rfl, .skip _⟩
  | sknp x => exact .inl ⟨_, rfl, .skip _⟩
  | ldImm x kk => exact .inl ⟨_, rfl, .writeV _ rfl⟩
  | addImm x kk => exact .inl ⟨_, rfl, .writeV _ rfl⟩
  | ldReg x y => exact .inl ⟨_, rfl, .writeV _ rfl⟩
  | orReg x y => exact .inl ⟨_, rfl, .writeV _ rfl⟩
  | andReg x y => exact .inl ⟨_, rfl, .writeV _ rfl⟩
  | xorReg x y => exact .inl ⟨_, rfl, .writeV _ rfl⟩
  | ldVxDt x => exact .inl ⟨_, rfl, .writeV _ rfl⟩
  | addReg x y => exact .inl ⟨_, rfl, .finishFlagged _ (.inl rfl) (.inr rfl)⟩
  | sub x y => exact .inl ⟨_, rfl, .finishFlagged _ (.inl rfl) (.inr rfl)⟩
  | shr x y => exact .inl ⟨_, rfl, .finishFlagged _ (.inl rfl) (.inr rfl)⟩
  | subn x y => exact .inl ⟨_, rfl, .finishFlagged _ (.inl rfl) (.inr rfl)⟩
  | shl x y => exact .inl ⟨_, rfl, .finishFlagged _ (.inl rfl) (.inr rfl)⟩
  | ldI nnn => exact .inl ⟨_, rfl, .wroteIndex _ (.inl ⟨nnn, rfl⟩)⟩
  | addI x => exact .inl ⟨_, rfl, .wroteIndex _ (.inr (.inl ⟨x, rfl⟩))⟩
  | ldF x => exact .inl ⟨_, rfl, .wroteIndex _ (.inr (.inr ⟨x, rfl⟩))⟩
  | rnd x kk => exact .inl ⟨_, rfl, .wroteRandom _ fun _ hz => s.readV_writeV_other _ hz⟩
  | ldDtVx x => exact .inl ⟨_, rfl, .wroteDelay x _ rfl⟩
  | ldStVx x => exact .inl ⟨_, rfl, .wroteSound x _ rfl⟩
  | ldVxK x =>
    cases h : s.lowestKey with
    | none => exact .inl ⟨s, by simp only [exec, execLdVxK, h], .wait⟩
    | some k =>
      exact .inl ⟨(s.writeV x (BitVec.ofNat 8 k)).advance, by simp only [exec, execLdVxK, h],
        .writeV _ rfl⟩
  | drw x y n =>
    rcases exec_drw_cases s x y n with ⟨-, -, h⟩ | ⟨-, bs, -, h⟩
    · exact .inl ⟨_, h, .halted _⟩
    · exact .inl ⟨_, h, .plot _ (.inr ⟨x, y, n, rfl⟩) rfl⟩
  | ldB x =>
    rcases exec_ldB_cases s x with ⟨-, h⟩ | ⟨-, u, hu, h⟩
    · exact .inl ⟨_, h, .halted _⟩
    · exact .inl ⟨_, h, .store hu⟩
  | stRegs x =>
    rcases exec_stRegs_cases s x with ⟨-, h⟩ | ⟨-, u, hu, h⟩
    · exact .inl ⟨_, h, .halted _⟩
    · exact .inl ⟨_, h, .store hu⟩
  | ldRegs x =>
    rcases exec_ldRegs_cases s x with ⟨-, h⟩ | ⟨-, bs, hbs, h⟩
    · exact .inl ⟨_, h, .halted _⟩
    · exact .inl ⟨_, h, .load (s.readBytes_some hbs).1⟩

/-- A next state that `exec` answers has one of the shapes. -/
theorem exec_effect {i : Instr} {s t : State} (h : exec i s = .next t) : ExecEffect i s t := by
  rcases exec_cases i s with ⟨u, hu, he⟩ | ⟨-, hf⟩
  · cases hu.symm.trans h
    exact he
  · cases hf.symm.trans h

/-- With a legal SP every instruction answers a next state. -/
theorem exec_answers (i : Instr) {s : State} (hsp : s.sp.toNat ≤ 16) : ∃ t, exec i s = .next t := by
  rcases exec_cases i s with ⟨t, ht, -⟩ | ⟨hgt, -⟩
  · exact ⟨t, ht⟩
  · omega

/-! ## Which instruction writes what -/

/-- Settles O19: of the shapes only the call and the return write SP or STACK. -/
theorem onlyCallAndReturnTouchTheStack : Obligations.OnlyCallAndReturnTouchTheStack := by
  intro i s t h
  cases exec_effect h with
  | called nnn hi => exact ⟨fun hc => absurd hi (hc nnn), fun hc => absurd hi (hc nnn)⟩
  | returned k hi => exact ⟨fun _ => rfl, fun _ hr => absurd hi hr⟩
  | _ => exact ⟨fun _ => rfl, fun _ _ => rfl⟩

/-- Settles O20: of the shapes only the index write changes I. -/
theorem onlyIndexInstructionsWriteI : Obligations.OnlyIndexInstructionsWriteI := by
  intro i s t h hldI haddI hldF
  cases exec_effect h with
  | wroteIndex w hi =>
    rcases hi with ⟨nnn, hi⟩ | ⟨x, hi⟩ | ⟨x, hi⟩
    · exact absurd hi (hldI nnn)
    · exact absurd hi (haddI x)
    · exact absurd hi (hldF x)
  | _ => rfl

/-- Settles O22: of the shapes only the screen write changes FB or REDRAW, and it clears no REDRAW. -/
theorem onlyClearAndDrawWriteTheScreen : Obligations.OnlyClearAndDrawWriteTheScreen := by
  intro i s t h
  cases exec_effect h with
  | wroteScreen v fb redraw hi hv hr =>
    refine ⟨fun hcls hdrw => ?_, hr⟩
    rcases hi with hi | ⟨x, y, n, hi⟩
    · exact absurd hi hcls
    · exact absurd hi (hdrw x y n)
  | _ => exact ⟨fun _ _ => ⟨rfl, rfl⟩, id⟩

/-- Settles O23: of the shapes only the two timer writes change DT and ST, and none changes KEYS. -/
theorem onlyTimerMovesWriteTimers : Obligations.OnlyTimerMovesWriteTimers := by
  intro i s t h
  cases exec_effect h with
  | wroteDelay x b hi => exact ⟨fun hd => absurd hi (hd x), fun _ => rfl, rfl⟩
  | wroteSound x b hi => exact ⟨fun _ => rfl, fun hs => absurd hi (hs x), rfl⟩
  | _ => exact ⟨fun _ => rfl, fun _ => rfl, rfl⟩

/-- Settles O24: the shapes that write registers keep every register that is not listed. -/
theorem registerWritesFollowTheListing : Obligations.RegisterWritesFollowTheListing := by
  intro i s t z h hz
  cases exec_effect h with
  | wroteRegs v hv => exact hv z hz
  | wroteRandom v hv => exact hv z hz
  | wroteScreen v fb redraw hi hv hr => exact hv z hz
  | _ => rfl

/-! ## What a step can do -/

/-- A Cycle on a halted core only takes the random byte. -/
theorem cycle_halted {s : State} (r : Option Byte) (h : s.halted = true) :
    cycle r s = .next (s.accept r) := by simp only [cycle, h, if_true]

/-- What a Cycle of a running core does: the fetch fault, the skip of an unknown opcode, or the
instruction it fetched. -/
theorem cycle_cases {s : State} (r : Option Byte) (h : s.halted = false) :
    cycle r s = .next ((s.accept r).halt .fetchRange) ∨
    s.pc.toNat ≤ 0xFFE ∧
      ((∃ op, cycle r s = .next ((s.accept r).emit (some (.unknown op s.pc))).advance) ∨
        ∃ i, cycle r s = exec i (s.accept r)) := by
  have hrun : cycle r s = fetchAndRun (s.accept r) := by
    simp only [cycle, h, Bool.false_eq_true, if_false]
  have hnone := (s.accept r).fetch16_eq_none s.pc.toNat
  rw [hrun, fetchAndRun, State.accept_pc]
  cases hf : (s.accept r).fetch16 s.pc.toNat with
  | none => exact .inl rfl
  | some op =>
    rw [hf] at hnone
    refine .inr ⟨by simpa using hnone, ?_⟩
    cases hd : decode op with
    | ok i => exact .inr ⟨i, by simp only [runWord, hd]⟩
    | error e => exact .inl ⟨op, by simp only [runWord, hd]; rfl⟩

/-- A step performs the first pending event. -/
theorem step_pending {s : State} {e : Event} {es : List Event} (h : s.env.inputs = e :: es) :
    step s = perform e (s.withInputs es) := by simp only [step, nextEvent, h]

/-- A step whose next event is a Cycle performs one, with some pending events and random byte. -/
theorem step_of_cycleNext {s : State} (h : s.cycleNext) :
    ∃ r es, step s = cycle r (s.withInputs es) := by
  rcases h with h | ⟨r, es, h⟩
  · exact ⟨none, s.env.inputs, step_noInput h⟩
  · exact ⟨some r, es, step_cycle h⟩

/-- Every step is a Boot, a Cycle, or an event that writes only the timers, the keys, REDRAW and the
host's side. -/
theorem step_cases (s : State) :
    (∃ rom es, s.env.inputs = .boot rom :: es ∧ step s = .next ((s.withInputs es).boot rom)) ∨
    (∃ r es, step s = cycle r (s.withInputs es)) ∨
    ∃ dt st keys redraw env, env.font = s.env.font ∧ step s =
      .next { s with dt := dt, st := st, keys := keys, redraw := redraw, env := env } := by
  cases h : s.env.inputs with
  | nil => exact .inr (.inl (step_of_cycleNext (.inl h)))
  | cons e es =>
    cases e with
    | boot rom => exact .inl ⟨rom, es, rfl, step_boot h⟩
    | cycle r => exact .inr (.inl (step_of_cycleNext (.inr ⟨r, es, h⟩)))
    | timerTick =>
      exact .inr (.inr ⟨countDown s.dt, countDown s.st, s.keys, s.redraw,
        (s.withInputs es).timerTick.env, rfl, step_timerTick h⟩)
    | setKeys k =>
      exact .inr (.inr ⟨s.dt, s.st, k, s.redraw,
        ((s.withInputs es).setKeys k).env, rfl, step_setKeys h⟩)
    | redrawAck =>
      exact .inr (.inr ⟨s.dt, s.st, s.keys, false,
        (s.withInputs es).redrawAck.env, rfl, step_redrawAck h⟩)

/-- Settles O12: a Cycle of a halted core and the host's small events keep HALTED and FAULT. -/
theorem onlyBootEndsAHalt : Obligations.OnlyBootEndsAHalt := by
  intro s t hhalt hstep
  rcases step_cases s with ⟨rom, es, hin, -⟩ | ⟨r, es, h⟩ | ⟨dt, st, keys, redraw, env, -, h⟩
  · exact .inr ⟨rom, es, hin⟩
  · cases (h.trans (cycle_halted r hhalt)).symm.trans hstep
    exact .inl ⟨hhalt, rfl⟩
  · cases h.symm.trans hstep
    exact .inl ⟨hhalt, rfl⟩

/-- Settles O31, by the step of each event. -/
theorem keysAndAckWriteOnlyTheirRegister : Obligations.KeysAndAckWriteOnlyTheirRegister := by
  intro s es
  refine ⟨fun k h => ?_, fun h => ?_⟩
  · exact ⟨_, step_setKeys h, rfl, rfl, rfl, rfl, fun _ => rfl⟩
  · exact ⟨_, step_redrawAck h, rfl, rfl, rfl, rfl, fun _ => rfl⟩

/-! ## The invariant of 10_state.md R57 -/

/-- The invariant reads SP, STACK, HALTED, FAULT, the memory and the font alone. -/
theorem State.Inv.congr {s t : State} (hs : s.Inv) (hsp : t.sp = s.sp) (hstack : t.stack = s.stack)
    (hhalted : t.halted = s.halted) (hfault : t.fault = s.fault) (hmem : t.mem = s.mem)
    (hfont : t.env.font = s.env.font) : t.Inv where
  spLegal := hsp ▸ hs.spLegal
  haltedIff := by rw [hhalted, hfault]; exact hs.haltedIff
  faultLegal := hfault ▸ hs.faultLegal
  returnsLegal := by rw [hhalted, hsp, hstack]; exact hs.returnsLegal
  memCanonical := by rw [hfont, hmem]; exact hs.memCanonical

theorem State.reset_inv : State.reset.Inv where
  spLegal := by decide
  haltedIff := by decide
  faultLegal := by decide
  returnsLegal := fun _ _ hk => absurd hk (Nat.not_lt_zero _)
  memCanonical := Memory.wf_nil _

/-- Boot leaves the registers of reset and a canonical memory, whatever state it starts from. -/
theorem State.boot_inv (s : State) (rom : List Byte) : (s.boot rom).Inv :=
  { State.reset_inv with memCanonical := s.wf_boot rom }

theorem FaultCode.code_ne_zero (c : FaultCode) : c.code ≠ 0 := by cases c <;> decide

theorem FaultCode.code_le_four (c : FaultCode) : c.code.toNat ≤ 4 := by cases c <;> decide

section inv
variable {i : Instr} {s t : State}

/-- Taking a fault sets HALTED with a code of 1 to 4. -/
theorem State.Inv.halt (hs : s.Inv) (c : FaultCode) : (s.halt c).Inv where
  spLegal := hs.spLegal
  haltedIff := iff_of_true rfl c.code_ne_zero
  faultLegal := c.code_le_four
  returnsLegal := nofun
  memCanonical := hs.memCanonical

/-- A call pushes PC + 2, at most 0x1000 when the call was fetched from PC. -/
theorem State.Inv.call (hs : s.Inv) (hpc : s.pc.toNat ≤ 0xFFE) (h : s.sp.toNat < 16) (w : Word) :
    State.Inv { s with stack := s.stack.set s.sp.toNat s.npc h, sp := s.sp + 1, pc := w } := by
  have hsp : (s.sp + 1).toNat = s.sp.toNat + 1 := (s.push_spec s.npc h).2
  refine ⟨?_, hs.haltedIff, hs.faultLegal, fun hrun k hk => ?_, hs.memCanonical⟩
  · show (s.sp + 1).toNat ≤ 16
    omega
  · replace hk : k.val < (s.sp + 1).toNat := hk
    show ((s.stack.set s.sp.toNat s.npc h)[k.val]).toNat ≤ 0x1000
    rw [Vector.getElem_set]
    split
    · have := toNat_add_two hpc
      rw [State.npc]
      omega
    · exact hs.returnsLegal hrun k (by omega)

/-- A return only takes an entry out of use. -/
theorem State.Inv.ret (hs : s.Inv) {n : Nat} (hn : s.sp.toNat = n + 1)
    (hsp : (s.sp - 1).toNat = n) (w : Word) : State.Inv { s with sp := s.sp - 1, pc := w } := by
  have hle := hs.spLegal
  refine ⟨?_, hs.haltedIff, hs.faultLegal, fun hrun k hk => ?_, hs.memCanonical⟩
  · show (s.sp - 1).toNat ≤ 16
    omega
  · replace hk : k.val < (s.sp - 1).toNat := hk
    exact hs.returnsLegal hrun k (by omega)

/-- Every shape of an instruction's effect keeps the invariant, if the instruction was fetched from
PC. -/
theorem ExecEffect.keeps_inv (he : ExecEffect i s t) (hs : s.Inv) (hpc : s.pc.toNat ≤ 0xFFE) :
    t.Inv := by
  cases he with
  | halted c => exact hs.halt c
  | called nnn hi h => exact hs.call hpc h _
  | returned k hi hk hsp => exact hs.ret hk hsp _
  | wroteMemory l hl =>
    exact ⟨hs.spLegal, hs.haltedIff, hs.faultLegal, hs.returnsLegal, hl hs.memCanonical⟩
  | _ => exact hs.congr rfl rfl rfl rfl rfl rfl

theorem State.Inv.accept (hs : s.Inv) (r : Option Byte) : (s.accept r).Inv :=
  hs.congr rfl rfl rfl rfl rfl rfl

theorem State.Inv.withInputs (hs : s.Inv) (es : List Event) : (s.withInputs es).Inv :=
  hs.congr rfl rfl rfl rfl rfl rfl

theorem cycle_keeps_inv {r : Option Byte} (hs : s.Inv) (h : cycle r s = .next t) : t.Inv := by
  cases hhalt : s.halted with
  | true =>
    cases (cycle_halted r hhalt).symm.trans h
    exact hs.accept r
  | false =>
    rcases cycle_cases r hhalt with hc | ⟨hpc, ⟨op, hc⟩ | ⟨i, hc⟩⟩
    · cases hc.symm.trans h
      exact (hs.accept r).halt _
    · cases hc.symm.trans h
      exact hs.congr rfl rfl rfl rfl rfl rfl
    · exact (exec_effect (hc.symm.trans h)).keeps_inv (hs.accept r) hpc

/-- With a legal SP a Cycle answers a next state. -/
theorem cycle_answers (r : Option Byte) (hsp : s.sp.toNat ≤ 16) : ∃ t, cycle r s = .next t := by
  cases hhalt : s.halted with
  | true => exact ⟨_, cycle_halted r hhalt⟩
  | false =>
    rcases cycle_cases r hhalt with hc | ⟨-, ⟨op, hc⟩ | ⟨i, hc⟩⟩
    · exact ⟨_, hc⟩
    · exact ⟨_, hc⟩
    · rw [hc]
      exact exec_answers i hsp

end inv

/-- Settles O15. -/
theorem resetMeetsInvariant : Obligations.ResetMeetsInvariant := State.reset_inv

/-- Settles O16: Boot establishes the invariant, a Cycle keeps it by the shapes of what an
instruction can do, and the other events write nothing that it reads. -/
theorem stepKeepsInvariant : Obligations.StepKeepsInvariant := by
  intro s t hs hstep
  rcases step_cases s with ⟨rom, es, -, h⟩ | ⟨r, es, h⟩ | ⟨dt, st, keys, redraw, env, hfont, h⟩
  · cases h.symm.trans hstep
    exact State.boot_inv _ rom
  · exact cycle_keeps_inv (hs.withInputs es) (h.symm.trans hstep)
  · cases h.symm.trans hstep
    exact hs.congr rfl rfl rfl rfl rfl hfont

/-- Settles O17: the one stop needs an SP above 16. -/
theorem invariantStatesAlwaysStep : Obligations.InvariantStatesAlwaysStep := by
  intro s hs
  rcases step_cases s with ⟨rom, es, -, h⟩ | ⟨r, es, h⟩ | ⟨dt, st, keys, redraw, env, -, h⟩
  · exact ⟨_, h⟩
  · rw [h]
    exact cycle_answers r hs.spLegal
  · exact ⟨_, h⟩

/-! ## The largest PC (10_state.md R37) -/

/-- An instruction that was fetched from PC and does not fault leaves PC at most 0x10FE; the return
needs the invariant's bound on the popped entry. -/
theorem ExecEffect.pc_le {i : Instr} {s t : State} (he : ExecEffect i s t) (hs : s.Inv)
    (hpc : s.pc.toNat ≤ 0xFFE) (hrun : t.halted = false) : t.pc.toNat ≤ 0x10FE := by
  cases he with
  | halted c => cases hrun
  | moved w hw => exact hw hpc
  | called nnn hi h => exact (zextAddr_toNat_le nnn).trans (by decide)
  | returned k hi hk hsp => exact (hs.returnsLegal hrun k (by omega)).trans (by decide)
  | _ => exact toNat_add_two_le hpc

/-- Settles O18, from the bound for each shape of an instruction's effect. -/
theorem completedCycleLeavesPcAtMost10FE : Obligations.CompletedCycleLeavesPcAtMost10FE := by
  intro s t hs hrun hnext hstep htrun
  obtain ⟨r, es, h⟩ := step_of_cycleNext hnext
  rcases cycle_cases (s := s.withInputs es) r hrun with hc | ⟨hpc, ⟨op, hc⟩ | ⟨i, hc⟩⟩
  · cases (h.trans hc).symm.trans hstep
    cases htrun
  · cases (h.trans hc).symm.trans hstep
    exact toNat_add_two_le hpc
  · have hexec := (h.trans hc).symm.trans hstep
    exact (exec_effect hexec).pc_le ((hs.withInputs es).accept r) hpc htrun

/-! ## Outputs and random bytes (10_state.md R51, R52) -/

/-- Performing an event replaces the output of the one before. -/
theorem perform_emit (e : Event) (s : State) (o : Option Output) :
    perform e (s.emit o) = perform e s := by
  cases e <;> rfl

/-- Settles O26: every event replaces the output before anything could read it. -/
theorem outputsAreNotFedBack : Obligations.OutputsAreNotFedBack := by
  intro s o
  cases h : s.env.inputs with
  | nil => exact (step_noInput (s := s.emit o) h).trans (step_noInput h).symm
  | cons e es =>
    rw [step_pending h, step_pending (s := s.emit o) h]
    exact perform_emit e (s.withInputs es) o

/-- The state with another random byte given to its Cycle. -/
def State.withRand (s : State) (r : Option Byte) : State :=
  { s with env := { s.env with rand := r } }

/-- Apply a function to the next state, if there is one. -/
def Result.mapNext (f : State → State) : Result → Result
  | .next s => .next (f s)
  | .fault c => .fault c
  | .refused c => .refused c

section withRand
variable (s : State) (r : Option Byte)

theorem State.push_withRand (w : Word) :
    (s.withRand r).push w = (s.push w).map (·.withRand r) := by
  unfold State.push
  rw [apply_dite (Option.map (State.withRand · r))]
  rfl

theorem State.pop_withRand :
    (s.withRand r).pop = s.pop.map fun p => (p.1, p.2.withRand r) := by
  unfold State.pop
  rw [apply_dite (Option.map fun p : Word × State => (p.1, p.2.withRand r))]
  rfl

theorem State.readBytes_withRand (a n : Nat) : (s.withRand r).readBytes a n = s.readBytes a n := by
  induction n generalizing a with
  | zero => rfl
  | succ n ih =>
    have hread : (s.withRand r).memRead a = s.memRead a := rfl
    rw [State.readBytes, State.readBytes, hread, ih]

theorem State.writeBytes_withRand (a : Nat) (bs : List Byte) :
    (s.withRand r).writeBytes a bs = (s.writeBytes a bs).map (·.withRand r) := by
  induction bs generalizing s a with
  | nil => rfl
  | cons b bs ih =>
    have hb : (s.withRand r).memWrite a b = (s.memWrite a b).map (·.withRand r) := by
      unfold State.memWrite
      split <;> rfl
    rw [State.writeBytes, State.writeBytes, hb]
    cases s.memWrite a b with
    | none => rfl
    | some t => exact ih t (a + 1)

theorem State.writeRegsFrom_withRand (k : Nat) (bs : List Byte) :
    (s.withRand r).writeRegsFrom k bs = (s.writeRegsFrom k bs).withRand r := by
  induction bs generalizing s k with
  | nil => rfl
  | cons b bs ih =>
    rw [State.writeRegsFrom, State.writeRegsFrom]
    split
    · exact ih (s.writeV _ b) (k + 1)
    · rfl

theorem State.plot_withRand (row : Fin 32) (c : Fin 64) :
    (s.withRand r).plot row c = (s.plot row c).withRand r := by
  have hp : (s.withRand r).pixel row c = s.pixel row c := rfl
  rw [State.plot, State.plot, hp]
  split <;> rfl

theorem State.plotAll_withRand (ps : List (Fin 32 × Fin 64)) :
    (s.withRand r).plotAll ps = (s.plotAll ps).withRand r := by
  induction ps generalizing s with
  | nil => rfl
  | cons p ps ih => rw [State.plotAll, State.plot_withRand, ih, State.plotAll]

/-- Every instruction but Cxkk commutes with exchanging the random byte, since every shared
operation does. -/
theorem exec_withRand {i : Instr} (hi : ∀ x kk, i ≠ .rnd x kk) :
    exec i (s.withRand r) = Result.mapNext (·.withRand r) (exec i s) := by
  have hsp : (s.withRand r).sp = s.sp := rfl
  have hnpc : (s.withRand r).npc = s.npc := rfl
  have haddr : (s.withRand r).effAddr 0 = s.effAddr 0 := rfl
  have hreg (x : Reg) : (s.withRand r).readV x = s.readV x := rfl
  have hregs (x : Reg) : (s.withRand r).regsUpTo x = s.regsUpTo x := rfl
  have hkey : (s.withRand r).lowestKey = s.lowestKey := rfl
  cases i with
  | rnd x kk => exact absurd rfl (hi x kk)
  | ret =>
    simp only [exec, execRet, hsp, State.pop_withRand]
    split
    · rfl
    · cases s.pop <;> rfl
  | call nnn =>
    simp only [exec, execCall, hsp, hnpc, State.push_withRand]
    split
    · rfl
    · cases s.push s.npc <;> rfl
  | ldVxK x =>
    simp only [exec, execLdVxK, hkey]
    cases s.lowestKey <;> rfl
  | drw x y n =>
    simp only [exec, execDrw, haddr, hreg, State.readBytes_withRand, State.drawRows_eq]
    cases s.readBytes (s.effAddr 0) n with
    | none => rfl
    | some bs => exact congrArg (Host.Outcome.next ·.advance) ((s.writeV VF 0).plotAll_withRand r _)
  | ldB x =>
    simp only [exec, execLdB, haddr, hreg, State.writeBytes_withRand]
    cases s.writeBytes (s.effAddr 0) (bcdDigits (s.readV x)) <;> rfl
  | stRegs x =>
    simp only [exec, execStRegs, haddr, hregs, State.writeBytes_withRand]
    cases s.writeBytes (s.effAddr 0) (s.regsUpTo x) <;> rfl
  | ldRegs x =>
    simp only [exec, execLdRegs, haddr, State.readBytes_withRand]
    cases s.readBytes (s.effAddr 0) (x.toNat + 1) with
    | none => rfl
    | some bs => exact congrArg (Host.Outcome.next ·.advance) (s.writeRegsFrom_withRand r 0 bs)
  | _ => rfl

end withRand

/-- Settles O25: exchanging the byte commutes with every instruction but Cxkk. -/
theorem randomByteReachesOnlyRnd : Obligations.RandomByteReachesOnlyRnd := by
  intro i s t r hi h
  have hcomm := exec_withRand s r hi
  rw [h] at hcomm
  exact hcomm

end Sys2Proof.Machine
end

section
/-! PROOFS. Memory as an instruction and the fetch see it: the statements of 20_memory.md. What an
instruction stores, when it faults instead, and which word the next Cycle runs are each said once. -/

namespace Sys2Proof

/-! ## The decoder reads back what the encoder built (30_encoding.md R111, R115) -/

section fields
variable (f : BitVec 4) (a : Addr12) (x y : Reg) (n : BitVec 4) (kk : Byte)

@[simp] theorem fieldFamily_encNnn : fieldFamily (encNnn f a) = f := (fields_encNnn f a).1
@[simp] theorem fieldNnn_encNnn : fieldNnn (encNnn f a) = a := (fields_encNnn f a).2
@[simp] theorem fieldFamily_encXkk : fieldFamily (encXkk f x kk) = f := (fields_encXkk f x kk).1
@[simp] theorem fieldX_encXkk : fieldX (encXkk f x kk) = x := (fields_encXkk f x kk).2.1
@[simp] theorem fieldKk_encXkk : fieldKk (encXkk f x kk) = kk := (fields_encXkk f x kk).2.2
@[simp] theorem fieldFamily_encXyn : fieldFamily (encXyn f x y n) = f := (fields_encXyn f x y n).1
@[simp] theorem fieldX_encXyn : fieldX (encXyn f x y n) = x := (fields_encXyn f x y n).2.1
@[simp] theorem fieldY_encXyn : fieldY (encXyn f x y n) = y := (fields_encXyn f x y n).2.2.1
@[simp] theorem fieldN_encXyn : fieldN (encXyn f x y n) = n := (fields_encXyn f x y n).2.2.2

end fields

/-- Each branch of the decoder (R115) answers the instruction whose encoding leads to it. -/
theorem decodeOp_encode {i : Instr} (h : i.wf = true) : decodeOp (encode i) = some i := by
  cases i with
  | cls => rfl
  | ret => rfl
  | drw x y n =>
    have hn : n % 16 = n := Nat.mod_eq_of_lt (by simpa [Instr.wf] using h)
    simp [encode, decodeOp, hn]
  | seReg x y => simp [encode, decodeOp, decodeNibbleZero]
  | sneReg x y => simp [encode, decodeOp, decodeNibbleZero]
  | skp x => simp [encode, decodeOp, decodeKey]
  | sknp x => simp [encode, decodeOp, decodeKey]
  | ldReg | orReg | andReg | xorReg | addReg | sub | shr | subn | shl =>
    simp [encode, decodeOp, decodeArith]
  | ldVxDt | ldVxK | ldDtVx | ldStVx | addI | ldF | ldB | stRegs | ldRegs =>
    simp [encode, decodeOp, decodeIo]
  | jp | call | seImm | sneImm | ldImm | addImm | ldI | jpV0 | rnd => simp [encode, decodeOp]

/-- Decoding the word of an instruction that has an encoding gives the instruction back. -/
theorem decode_encode {i : Instr} (h : i.wf = true) : decode (encode i) = .ok i := by
  simp only [decode, decodeOp_encode h]

namespace Machine

/-! ## The fetch (20_memory.md R83, R84) -/

/-- The word fetched is the two bytes read, high byte first. -/
theorem State.fetch16_of_memRead {s : State} {a : Nat} {hi lo : Byte}
    (hhi : s.memRead a = some hi) (hlo : s.memRead (a + 1) = some lo) :
    s.fetch16 a = some (hi ++ lo) := by
  simp only [State.fetch16, hhi, hlo]

/-- Settles O7. -/
theorem fetchIsBigEndian : Obligations.FetchIsBigEndian :=
  fun _ _ hi lo hhi hlo => ⟨_, State.fetch16_of_memRead hhi hlo, wordOf_toNat hi lo⟩

/-- Settles O9: of what a Cycle can do, only the fetch fault leaves PC above 0xFFE. -/
theorem fetchBeyondMemoryHalts : Obligations.FetchBeyondMemoryHalts := by
  intro s hrun hnext hpc
  obtain ⟨r, es, hstep⟩ := step_of_cycleNext hnext
  rcases cycle_cases (s := s.withInputs es) r hrun with hc | ⟨hle, -⟩
  · exact ⟨_, hstep.trans hc, rfl, rfl, rfl, rfl, fun _ => rfl⟩
  · exact absurd hpc (Nat.not_lt.2 hle)

/-- A Cycle of a running core runs the word it fetched. -/
theorem cycle_of_fetch {s : State} {op : Word} (r : Option Byte) (hrun : s.halted = false)
    (hop : s.fetch16 s.pc.toNat = some op) : cycle r s = runWord op (s.accept r) := by
  have hop' : (s.accept r).fetch16 (s.accept r).pc.toNat = some op := hop
  simp only [cycle, hrun, Bool.false_eq_true, if_false, fetchAndRun, hop']

/-- The word of an instruction runs as the instruction. -/
theorem runWord_encode {i : Instr} (hwf : i.wf = true) (s : State) :
    runWord (encode i) s = exec i s := by
  simp only [runWord, decode_encode hwf]

/-! ## Faults (60_exceptions.md R261) -/

/-- What the wait of Fx0A can do (43_keys_timers.md R222): nothing, or the write of the lowest
pressed key and the advance. -/
theorem exec_ldVxK_cases (s : State) (x : Reg) :
    (s.lowestKey = none ∧ exec (.ldVxK x) s = .next s) ∨
    ∃ k, s.lowestKey = some k ∧
      exec (.ldVxK x) s = .next (s.writeV x (BitVec.ofNat 8 k)).advance := by
  cases hk : s.lowestKey with
  | none => exact .inl ⟨rfl, by simp only [exec, execLdVxK, hk]⟩
  | some k => exact .inr ⟨k, rfl, by simp only [exec, execLdVxK, hk]⟩

/-- Inversion of `exec` by `faultOf`: the fault listed for the instruction, or none is listed and it
completes with HALTED and FAULT as they were, or the model's one stop (log 5). -/
theorem exec_fault_cases (i : Instr) (s : State) :
    (∃ c, faultOf i s = some c ∧ exec i s = .next (s.halt c)) ∨
    (faultOf i s = none ∧ ∃ t, exec i s = .next t ∧ t.halted = s.halted ∧ t.fault = s.fault) ∨
    (16 < s.sp.toNat ∧ exec i s = .fault .stackPointerIllegal) := by
  cases i with
  | ret =>
    rcases exec_ret_cases s with ⟨hsp, h⟩ | ⟨k, hk, -, h⟩ | h
    · have h0 : s.sp = 0 := BitVec.eq_of_toNat_eq hsp
      exact .inl ⟨_, if_pos h0, h⟩
    · have h0 : s.sp ≠ 0 := fun e => by rw [e] at hk; cases hk
      exact .inr (.inl ⟨if_neg h0, _, h, rfl, rfl⟩)
    · exact .inr (.inr h)
  | call nnn =>
    rcases exec_call_cases s nnn with ⟨hsp, h⟩ | ⟨hsp, h⟩ | h
    · have h16 : s.sp = 16 := BitVec.eq_of_toNat_eq hsp
      exact .inl ⟨_, if_pos h16, h⟩
    · have h16 : s.sp ≠ 16 := fun e => by rw [e] at hsp; exact absurd hsp (by decide)
      exact .inr (.inl ⟨if_neg h16, _, h, rfl, rfl⟩)
    · exact .inr (.inr h)
  | drw x y n =>
    rcases exec_drw_cases s x y n with ⟨hn, hr, h⟩ | ⟨hr, bs, -, h⟩
    · exact .inl ⟨_, if_pos ⟨hn, hr⟩, h⟩
    · have hframe := ((s.writeV VF 0).plotAll_frame
        (spritePoints (s.readV x).toNat (s.readV y).toNat bs)).1
      exact .inr (.inl ⟨if_neg (by omega), _, h, (congrArg State.halted hframe :),
        (congrArg State.fault hframe :)⟩)
  | ldB x =>
    rcases exec_ldB_cases s x with ⟨hr, h⟩ | ⟨hr, u, hu, h⟩
    · exact .inl ⟨_, if_pos hr, h⟩
    · have hframe := ((s.writeBytes_spec _ _).2 u hu).1
      exact .inr (.inl ⟨if_neg (by omega), _, h, (congrArg State.halted hframe :),
        (congrArg State.fault hframe :)⟩)
  | stRegs x =>
    rcases exec_stRegs_cases s x with ⟨hr, h⟩ | ⟨hr, u, hu, h⟩
    · exact .inl ⟨_, if_pos hr, h⟩
    · have hframe := ((s.writeBytes_spec _ _).2 u hu).1
      exact .inr (.inl ⟨if_neg (by omega), _, h, (congrArg State.halted hframe :),
        (congrArg State.fault hframe :)⟩)
  | ldRegs x =>
    rcases exec_ldRegs_cases s x with ⟨hr, h⟩ | ⟨hr, bs, -, h⟩
    · exact .inl ⟨_, if_pos hr, h⟩
    · have hframe := (s.writeRegsFrom_spec 0 bs).1
      exact .inr (.inl ⟨if_neg (by omega), _, h, (congrArg State.halted hframe :),
        (congrArg State.fault hframe :)⟩)
  | ldVxK x =>
    rcases exec_ldVxK_cases s x with ⟨-, h⟩ | ⟨k, -, h⟩
    · exact .inr (.inl ⟨rfl, _, h, rfl, rfl⟩)
    · exact .inr (.inl ⟨rfl, _, h, rfl, rfl⟩)
  | _ => exact .inr (.inl ⟨rfl, _, rfl, rfl, rfl⟩)

/-- With a legal SP and no fault listed, the instruction completes on a core that keeps running. -/
theorem exec_of_no_fault {i : Instr} {s : State} (hf : faultOf i s = none)
    (hsp : s.sp.toNat ≤ 16) :
    ∃ t, exec i s = .next t ∧ t.halted = s.halted ∧ t.fault = s.fault := by
  rcases exec_fault_cases i s with ⟨c, hc, -⟩ | ⟨-, h⟩ | ⟨hgt, -⟩
  · cases hf.symm.trans hc
  · exact h
  · omega

/-- Settles O59: in each form the range fails, and what is left of its inversion is the fault. -/
theorem outOfRangeAccessWritesNothing : Obligations.OutOfRangeAccessWritesNothing := by
  intro s x y n
  refine ⟨fun hr => ?_, fun hr => ⟨?_, ?_⟩, fun hn hr => ?_⟩
  · rcases exec_ldB_cases s x with ⟨-, h⟩ | ⟨hle, -⟩
    · exact h
    · omega
  · rcases exec_stRegs_cases s x with ⟨-, h⟩ | ⟨hle, -⟩
    · exact h
    · omega
  · rcases exec_ldRegs_cases s x with ⟨-, h⟩ | ⟨hle, -⟩
    · exact h
    · omega
  · rcases exec_drw_cases s x y n with ⟨-, -, h⟩ | ⟨hle, -⟩
    · exact h
    · omega

/-! ## Stores (20_memory.md R85 to R88) -/

/-- The instruction is one of the two that R88 lists as writing memory. -/
def storesMemory (i : Instr) : Prop := (∃ x, i = .ldB x) ∨ ∃ x, i = .stRegs x

/-- Every other instruction has no bytes to store. -/
theorem storedBytes_of_not_stores {i : Instr} (hi : ¬ storesMemory i) (s : State) :
    storedBytes i s = [] := by
  cases i with
  | ldB x => exact absurd (.inl ⟨x, rfl⟩) hi
  | stRegs x => exact absurd (.inr ⟨x, rfl⟩) hi
  | _ => rfl

/-- An instruction of any other kind leaves every byte as it was. -/
theorem exec_sameMemory {i : Instr} {s t : State} (hi : ¬ storesMemory i)
    (h : exec i s = .next t) : sameMemory s t := by
  cases i with
  | ldB x => exact absurd (.inl ⟨x, rfl⟩) hi
  | stRegs x => exact absurd (.inr ⟨x, rfl⟩) hi
  | ret =>
    rcases exec_ret_cases s with ⟨-, he⟩ | ⟨k, -, -, he⟩ | ⟨-, he⟩
    · cases he.symm.trans h
      exact fun _ => rfl
    · cases he.symm.trans h
      exact fun _ => rfl
    · cases he.symm.trans h
  | call nnn =>
    rcases exec_call_cases s nnn with ⟨-, he⟩ | ⟨hsp, he⟩ | ⟨-, he⟩
    · cases he.symm.trans h
      exact fun _ => rfl
    · cases he.symm.trans h
      exact fun _ => rfl
    · cases he.symm.trans h
  | drw x y n =>
    rcases exec_drw_cases s x y n with ⟨-, -, he⟩ | ⟨-, bs, -, he⟩
    · cases he.symm.trans h
      exact fun _ => rfl
    · cases he.symm.trans h
      have hframe := ((s.writeV VF 0).plotAll_frame
        (spritePoints (s.readV x).toNat (s.readV y).toNat bs)).1
      exact State.memRead_congr (congrArg State.mem hframe :) (congrArg (·.env.font) hframe :)
  | ldRegs x =>
    rcases exec_ldRegs_cases s x with ⟨-, he⟩ | ⟨-, bs, -, he⟩
    · cases he.symm.trans h
      exact fun _ => rfl
    · cases he.symm.trans h
      have hframe := (s.writeRegsFrom_spec 0 bs).1
      exact State.memRead_congr (congrArg State.mem hframe :) (congrArg (·.env.font) hframe :)
  | ldVxK x =>
    rcases exec_ldVxK_cases s x with ⟨-, he⟩ | ⟨k, -, he⟩
    · cases he.symm.trans h
      exact fun _ => rfl
    · cases he.symm.trans h
      exact fun _ => rfl
  | _ =>
    cases h
    exact fun _ => rfl

/-- One of the two that store writes its bytes from I on and advances, unless R261 lists a fault for
it, which writes nothing. -/
theorem exec_store_cases {i : Instr} (hi : storesMemory i) (s : State) :
    (faultOf i s = some .memRange ∧ exec i s = .next (s.halt .memRange)) ∨
    ∃ u, s.writeBytes (s.effAddr 0) (storedBytes i s) = some u ∧ exec i s = .next u.advance := by
  rcases hi with ⟨x, rfl⟩ | ⟨x, rfl⟩
  · rcases exec_ldB_cases s x with ⟨hr, h⟩ | ⟨-, u, hu, h⟩
    · exact .inl ⟨if_pos hr, h⟩
    · exact .inr ⟨u, hu, h⟩
  · rcases exec_stRegs_cases s x with ⟨hr, h⟩ | ⟨-, u, hu, h⟩
    · exact .inl ⟨if_pos hr, h⟩
    · exact .inr ⟨u, hu, h⟩

/-- After a write of an instruction's bytes at I every address reads as `byteAfter` says. -/
theorem memRead_of_writeBytes {i : Instr} {s u : State}
    (hu : s.writeBytes (s.effAddr 0) (storedBytes i s) = some u) (a : Nat) :
    u.memRead a = byteAfter i s a := by
  obtain ⟨-, hread, hother, -⟩ := (s.writeBytes_spec _ _).2 u hu
  by_cases ha : a < s.effAddr 0 ∨ s.effAddr 0 + (storedBytes i s).length ≤ a
  · rw [hother a ha, byteAfter_outside ha]
  · obtain ⟨k, rfl⟩ := Nat.exists_eq_add_of_le (show s.effAddr 0 ≤ a by omega)
    have hk : k < (storedBytes i s).length := by omega
    rw [hread k hk, byteAfter_stored hk]

/-- An instruction that does not fault leaves each byte as `byteAfter` says. -/
theorem exec_memRead {i : Instr} {s t : State} (hf : faultOf i s = none)
    (h : exec i s = .next t) (a : Nat) : t.memRead a = byteAfter i s a := by
  by_cases hi : storesMemory i
  · rcases exec_store_cases hi s with ⟨hc, -⟩ | ⟨u, hu, he⟩
    · cases hf.symm.trans hc
    · cases he.symm.trans h
      exact memRead_of_writeBytes hu a
  · have hnil := storedBytes_of_not_stores hi s
    rw [exec_sameMemory hi h a, byteAfter_outside (by rw [hnil, List.length_nil]; omega)]

/-- An instruction that has bytes to store and does not fault advances PC. -/
theorem exec_store_advanced {i : Instr} {s t : State} (hf : faultOf i s = none)
    (h : exec i s = .next t) (hne : storedBytes i s ≠ []) : advanced s t := by
  have hi : storesMemory i := by_contra fun hi => hne (storedBytes_of_not_stores hi s)
  rcases exec_store_cases hi s with ⟨hc, -⟩ | ⟨u, hu, he⟩
  · cases hf.symm.trans hc
  · cases he.symm.trans h
    have hpc : u.pc = s.pc := (congrArg State.pc ((s.writeBytes_spec _ _).2 u hu).1 :)
    rw [advanced, State.advance_pc, hpc, BitVec.toNat_add]
    rfl

/-- A byte that an instruction changes lies in the range of R88's table. -/
theorem stored_range {i : Instr} {s t : State} {a : Nat} (h : exec i s = .next t)
    (ha : t.memRead a ≠ s.memRead a) :
    storesMemory i ∧ s.effAddr 0 ≤ a ∧ a < s.effAddr 0 + (storedBytes i s).length := by
  have hi : storesMemory i := by_contra fun hi => ha (exec_sameMemory hi h a)
  refine ⟨hi, ?_⟩
  rcases exec_store_cases hi s with ⟨-, he⟩ | ⟨u, hu, he⟩
  · cases he.symm.trans h
    exact absurd rfl ha
  · cases he.symm.trans h
    by_contra hout
    exact ha ((memRead_of_writeBytes hu a).trans (byteAfter_outside (by omega)))

/-- Settles O21: three bytes of Fx33 and x + 1 of Fx55, the first at I. -/
theorem onlyBcdAndDumpWriteMemory : Obligations.OnlyBcdAndDumpWriteMemory := by
  intro i s t a h ha
  obtain ⟨⟨x, rfl⟩ | ⟨x, rfl⟩, hle, hlt⟩ := stored_range h ha
  · have hlen : (storedBytes (.ldB x) s).length = 3 := rfl
    refine .inl ⟨x, rfl, hle, ?_⟩
    simp only [State.effAddr] at hlt ⊢
    omega
  · have hlen : (storedBytes (.stRegs x) s).length = x.toNat + 1 := (s.regsUpTo_spec x).1
    refine .inr ⟨x, rfl, hle, ?_⟩
    simp only [State.effAddr] at hlt ⊢
    omega

/-! ## The next Cycle (20_memory.md R96) -/

/-- On a running core the next Cycle, pending or not, runs the word of the two bytes at PC. -/
theorem step_of_memRead {s : State} {hi lo : Byte} (hrun : s.halted = false)
    (hhi : s.memRead s.pc.toNat = some hi) (hlo : s.memRead (s.pc.toNat + 1) = some lo) :
    (s.env.inputs = [] → step s = runWord (hi ++ lo) (s.accept none)) ∧
    (∀ (r : Byte) (es : List Event), s.env.inputs = .cycle r :: es →
      step s = runWord (hi ++ lo) ((s.withInputs es).accept (some r))) := by
  have hop := State.fetch16_of_memRead hhi hlo
  refine ⟨fun h => (step_noInput h).trans (cycle_of_fetch none hrun hop), fun r es h => ?_⟩
  exact (step_cycle h).trans (cycle_of_fetch (s := s.withInputs es) (some r) hrun hop)

/-- Accepting a Cycle changes nothing that `byteAfter` reads. -/
theorem byteAfter_accept (i : Instr) (s : State) (es : List Event) (r : Option Byte) (a : Nat) :
    byteAfter i ((s.withInputs es).accept r) a = byteAfter i s a := rfl

/-- Settles O60: the instruction leaves memory as `byteAfter` says, and the next Cycle reads it. -/
theorem storeIsSeenByTheNextFetch : Obligations.StoreIsSeenByTheNextFetch := by
  intro s i hrun hnext hwf hsp hop hf
  obtain ⟨r, es, hstep⟩ := step_of_cycleNext hnext
  have hcycle := cycle_of_fetch (s := s.withInputs es) r hrun hop
  rw [runWord_encode hwf] at hcycle
  have hf' : faultOf i ((s.withInputs es).accept r) = none := hf
  obtain ⟨t, ht, hhalted, -⟩ := exec_of_no_fault hf' hsp
  have hread (a : Nat) : t.memRead a = byteAfter i s a :=
    (exec_memRead hf' ht a).trans (byteAfter_accept i s es r a)
  have hrun' : t.halted = false := hhalted.trans hrun
  refine ⟨t, (hstep.trans hcycle).trans ht, hrun', ?_, hread, fun hi lo hhi hlo => ?_⟩
  · exact fun hne => (exec_store_advanced hf' ht hne :)
  · exact step_of_memRead hrun' ((hread _).trans hhi) ((hread _).trans hlo)

end Machine
end Sys2Proof
end

section
/-! PROOFS. Decoding and encoding, and the step that runs a decoded word: the statements of
30_encoding.md. That a word is its family and its operand fields put together again is said once for
each format of R111. -/

namespace Sys2Proof

/-! ## The fields as numbers (30_encoding.md R112) -/

section fieldNumbers
variable (op : Word)

theorem fieldFamily_toNat : (fieldFamily op).toNat = op.toNat / 4096 := by
  have := op.isLt
  simp only [fieldFamily, BitVec.extractLsb'_toNat, Nat.shiftRight_eq_div_pow]
  omega

theorem fieldNnn_toNat : (fieldNnn op).toNat = op.toNat % 4096 := by
  simp [fieldNnn]

theorem fieldX_toNat : (fieldX op).toNat = op.toNat / 256 % 16 := by
  simp [fieldX, Nat.shiftRight_eq_div_pow]

theorem fieldY_toNat : (fieldY op).toNat = op.toNat / 16 % 16 := by
  simp [fieldY, Nat.shiftRight_eq_div_pow]

theorem fieldN_toNat : (fieldN op).toNat = op.toNat % 16 := by
  simp [fieldN]

theorem fieldKk_toNat : (fieldKk op).toNat = op.toNat % 256 := by
  simp [fieldKk]

end fieldNumbers

/-- Settles O6. -/
theorem fieldsStandAtFixedPositions : Obligations.FieldsStandAtFixedPositions := fun op =>
  ⟨fieldFamily_toNat op, fieldNnn_toNat op, fieldX_toNat op, fieldY_toNat op, fieldN_toNat op,
    fieldKk_toNat op⟩

/-! ## A word is its fields put together (30_encoding.md R111) -/

section formats
variable {op : Word} {f : BitVec 4}

theorem encNnn_of_fields (hf : fieldFamily op = f) : encNnn f (fieldNnn op) = op := by
  apply BitVec.eq_of_toNat_eq
  rw [encNnn_toNat, ← hf, fieldFamily_toNat, fieldNnn_toNat]
  omega

theorem encXkk_of_fields {kk : Byte} (hf : fieldFamily op = f) (hk : fieldKk op = kk) :
    encXkk f (fieldX op) kk = op := by
  apply BitVec.eq_of_toNat_eq
  rw [encXkk_toNat, ← hf, ← hk, fieldFamily_toNat, fieldX_toNat, fieldKk_toNat]
  omega

theorem encXyn_of_fields {n : BitVec 4} (hf : fieldFamily op = f) (hn : fieldN op = n) :
    encXyn f (fieldX op) (fieldY op) n = op := by
  apply BitVec.eq_of_toNat_eq
  rw [encXyn_toNat, ← hf, ← hn, fieldFamily_toNat, fieldX_toNat, fieldY_toNat, fieldN_toNat]
  omega

/-- The low nibble of a sprite instruction is its row count. -/
theorem encode_drw_of_fields (hf : fieldFamily op = 0xD#4) :
    encode (.drw (fieldX op) (fieldY op) (fieldN op).toNat) = op ∧
      (Instr.drw (fieldX op) (fieldY op) (fieldN op).toNat).wf = true :=
  ⟨encXyn_of_fields hf (by simp), decide_eq_true (fieldN op).isLt⟩

end formats

/-! ## Decoding and encoding are inverse (30_encoding.md R115, R118) -/

/-- The bytes of a word are a two-byte instruction exactly when the word is one. -/
theorem decodeBytes_eq_ok_iff {hi lo : Byte} {rest rest' : List Byte} {i : Instr} :
    decodeBytes (hi :: lo :: rest) = .ok (i, rest') ↔
      decode (wordOf hi lo) = .ok i ∧ rest = rest' := by
  rw [decodeBytes]
  cases decode (wordOf hi lo) <;> simp [Except.map]

/-- Settles O2: the two bytes make the word again, and the decoder reads back what was encoded. -/
theorem decodeOfEncodeIsIdentity : Obligations.DecodeOfEncodeIsIdentity := by
  intro i rest hwf
  refine decodeBytes_eq_ok_iff.2 ⟨?_, rfl⟩
  rw [wordOf_bytes, decode_encode hwf]

section encodeBack
variable {op : Word} {i : Instr}

theorem decode_eq_ok_iff : decode op = .ok i ↔ decodeOp op = some i := by
  unfold decode
  split
  · next j hj => simp [hj]
  · next hn => simp [hn]

theorem encode_of_decodeControl (h : decodeControl op = some i) :
    encode i = op ∧ i.wf = true := by
  unfold decodeControl at h
  split at h
  case h_3 => cases h
  all_goals
    next hop =>
      cases h
      exact ⟨(BitVec.eq_of_toNat_eq hop).symm, rfl⟩

/-- The low nibble picks the instruction, and stands in its encoding. -/
theorem encode_of_decodeArith (hf : fieldFamily op = 0x8#4) (h : decodeArith op = some i) :
    encode i = op ∧ i.wf = true := by
  unfold decodeArith at h
  split at h
  case h_10 => cases h
  all_goals
    next hn =>
      cases h
      exact ⟨encXyn_of_fields hf (BitVec.eq_of_toNat_eq hn), rfl⟩

theorem of_decodeNibbleZero {j : Instr} (h : decodeNibbleZero op j = some i) :
    fieldN op = 0x0#4 ∧ j = i := by
  unfold decodeNibbleZero at h
  split at h
  · next hn => exact ⟨BitVec.eq_of_toNat_eq hn, Option.some.inj h⟩
  · cases h

/-- The low byte picks the instruction, and stands in its encoding. -/
theorem encode_of_decodeKey (hf : fieldFamily op = 0xE#4) (h : decodeKey op = some i) :
    encode i = op ∧ i.wf = true := by
  unfold decodeKey at h
  split at h
  case h_3 => cases h
  all_goals
    next hk =>
      cases h
      exact ⟨encXkk_of_fields hf (BitVec.eq_of_toNat_eq hk), rfl⟩

theorem encode_of_decodeIo (hf : fieldFamily op = 0xF#4) (h : decodeIo op = some i) :
    encode i = op ∧ i.wf = true := by
  unfold decodeIo at h
  split at h
  case h_10 => cases h
  all_goals
    next hk =>
      cases h
      exact ⟨encXkk_of_fields hf (BitVec.eq_of_toNat_eq hk), rfl⟩

/-- Each branch of the decoder (R115) answers an instruction that encodes to the word decoded. -/
theorem encode_of_decodeOp (h : decodeOp op = some i) : encode i = op ∧ i.wf = true := by
  unfold decodeOp at h
  split at h
  case h_1 => exact encode_of_decodeControl h
  case h_6 hf | h_10 hf =>
    obtain ⟨hn, rfl⟩ := of_decodeNibbleZero h
    exact ⟨encXyn_of_fields (BitVec.eq_of_toNat_eq hf) hn, rfl⟩
  case h_9 hf => exact encode_of_decodeArith (BitVec.eq_of_toNat_eq hf) h
  case h_15 hf => exact encode_of_decodeKey (BitVec.eq_of_toNat_eq hf) h
  case h_16 hf => exact encode_of_decodeIo (BitVec.eq_of_toNat_eq hf) h
  all_goals cases h
  case h_2.refl hf | h_3.refl hf | h_11.refl hf | h_12.refl hf =>
    exact ⟨encNnn_of_fields (BitVec.eq_of_toNat_eq hf), rfl⟩
  case h_4.refl hf | h_5.refl hf | h_7.refl hf | h_8.refl hf | h_13.refl hf =>
    exact ⟨encXkk_of_fields (BitVec.eq_of_toNat_eq hf) rfl, rfl⟩
  case h_14.refl hf => exact encode_drw_of_fields (BitVec.eq_of_toNat_eq hf)

end encodeBack

/-- Settles O3. -/
theorem decodedWordEncodesBack : Obligations.DecodedWordEncodesBack :=
  fun _ _ h => encode_of_decodeOp (decode_eq_ok_iff.1 h)

/-- Decoding is the inverse of encoding on the instructions that have an encoding. -/
theorem decode_eq_ok_iff_encode {op : Word} {i : Instr} :
    decode op = .ok i ↔ encode i = op ∧ i.wf = true := by
  refine ⟨decodedWordEncodesBack op i, ?_⟩
  rintro ⟨rfl, hwf⟩
  exact decode_encode hwf

/-! ## The rows of the opcode table (30_encoding.md R118) -/

section rows
variable {op : Word} {f : BitVec 4}

/-- A mask that covers a field fixes it. -/
theorem extractLsb'_of_mask {mask pattern : Word} {start len : Nat} (h : op &&& mask = pattern)
    (hm : mask.extractLsb' start len = BitVec.allOnes len) :
    op.extractLsb' start len = pattern.extractLsb' start len := by
  rw [← h, BitVec.extractLsb'_and, hm, BitVec.and_allOnes]

/-- The mask FFFF of the two control instructions fixes the whole word. -/
theorem eq_of_mask {pattern : Word} (h : op &&& 0xFFFF#16 = pattern) : pattern = op :=
  h.symm.trans BitVec.and_allOnes

/-- The mask F000 of format NNN fixes the family. -/
theorem encNnn_of_mask (h : op &&& 0xF000#16 = encNnn f 0) : encNnn f (fieldNnn op) = op :=
  encNnn_of_fields ((extractLsb'_of_mask h rfl).trans (fieldFamily_encNnn ..))

/-- The mask F000 of format XKK fixes the family. -/
theorem encXkk_of_mask (h : op &&& 0xF000#16 = encXkk f 0 0) :
    encXkk f (fieldX op) (fieldKk op) = op :=
  encXkk_of_fields ((extractLsb'_of_mask h rfl).trans (fieldFamily_encXkk ..)) rfl

/-- The mask F0FF of format XLL fixes the family and the low byte. -/
theorem encXll_of_mask {ll : Byte} (h : op &&& 0xF0FF#16 = encXkk f 0 ll) :
    encXkk f (fieldX op) ll = op :=
  encXkk_of_fields ((extractLsb'_of_mask h rfl).trans (fieldFamily_encXkk ..))
    ((extractLsb'_of_mask h rfl).trans (fieldKk_encXkk ..))

/-- The mask F00F of format XYN fixes the family and the low nibble. -/
theorem encXyn_of_mask {n : BitVec 4} (h : op &&& 0xF00F#16 = encXyn f 0 0 n) :
    encXyn f (fieldX op) (fieldY op) n = op :=
  encXyn_of_fields ((extractLsb'_of_mask h rfl).trans (fieldFamily_encXyn ..))
    ((extractLsb'_of_mask h rfl).trans (fieldN_encXyn ..))

end rows

/-- A word of a row encodes the instruction of that row, with the word's own operand fields. -/
theorem exists_encode_of_row {op : Word} : ∀ {k : Nat} {row : OpcodeRow},
    opcodeTable[k]? = some row → op &&& row.mask = row.pattern →
      ∃ i : Instr, (encode i = op ∧ i.wf = true) ∧ rowIndex i = k
  | 0, _, rfl, h => ⟨.cls, ⟨eq_of_mask h, rfl⟩, rfl⟩
  | 1, _, rfl, h => ⟨.ret, ⟨eq_of_mask h, rfl⟩, rfl⟩
  | 2, _, rfl, h => ⟨.jp _, ⟨encNnn_of_mask h, rfl⟩, rfl⟩
  | 3, _, rfl, h => ⟨.call _, ⟨encNnn_of_mask h, rfl⟩, rfl⟩
  | 4, _, rfl, h => ⟨.seImm _ _, ⟨encXkk_of_mask h, rfl⟩, rfl⟩
  | 5, _, rfl, h => ⟨.sneImm _ _, ⟨encXkk_of_mask h, rfl⟩, rfl⟩
  | 6, _, rfl, h => ⟨.seReg _ _, ⟨encXyn_of_mask h, rfl⟩, rfl⟩
  | 7, _, rfl, h => ⟨.ldImm _ _, ⟨encXkk_of_mask h, rfl⟩, rfl⟩
  | 8, _, rfl, h => ⟨.addImm _ _, ⟨encXkk_of_mask h, rfl⟩, rfl⟩
  | 9, _, rfl, h => ⟨.ldReg _ _, ⟨encXyn_of_mask h, rfl⟩, rfl⟩
  | 10, _, rfl, h => ⟨.orReg _ _, ⟨encXyn_of_mask h, rfl⟩, rfl⟩
  | 11, _, rfl, h => ⟨.andReg _ _, ⟨encXyn_of_mask h, rfl⟩, rfl⟩
  | 12, _, rfl, h => ⟨.xorReg _ _, ⟨encXyn_of_mask h, rfl⟩, rfl⟩
  | 13, _, rfl, h => ⟨.addReg _ _, ⟨encXyn_of_mask h, rfl⟩, rfl⟩
  | 14, _, rfl, h => ⟨.sub _ _, ⟨encXyn_of_mask h, rfl⟩, rfl⟩
  | 15, _, rfl, h => ⟨.shr _ _, ⟨encXyn_of_mask h, rfl⟩, rfl⟩
  | 16, _, rfl, h => ⟨.subn _ _, ⟨encXyn_of_mask h, rfl⟩, rfl⟩
  | 17, _, rfl, h => ⟨.shl _ _, ⟨encXyn_of_mask h, rfl⟩, rfl⟩
  | 18, _, rfl, h => ⟨.sneReg _ _, ⟨encXyn_of_mask h, rfl⟩, rfl⟩
  | 19, _, rfl, h => ⟨.ldI _, ⟨encNnn_of_mask h, rfl⟩, rfl⟩
  | 20, _, rfl, h => ⟨.jpV0 _, ⟨encNnn_of_mask h, rfl⟩, rfl⟩
  | 21, _, rfl, h => ⟨.rnd _ _, ⟨encXkk_of_mask h, rfl⟩, rfl⟩
  | 22, _, rfl, h => ⟨.drw _ _ _, encode_drw_of_fields (extractLsb'_of_mask h rfl), rfl⟩
  | 23, _, rfl, h => ⟨.skp _, ⟨encXll_of_mask h, rfl⟩, rfl⟩
  | 24, _, rfl, h => ⟨.sknp _, ⟨encXll_of_mask h, rfl⟩, rfl⟩
  | 25, _, rfl, h => ⟨.ldVxDt _, ⟨encXll_of_mask h, rfl⟩, rfl⟩
  | 26, _, rfl, h => ⟨.ldVxK _, ⟨encXll_of_mask h, rfl⟩, rfl⟩
  | 27, _, rfl, h => ⟨.ldDtVx _, ⟨encXll_of_mask h, rfl⟩, rfl⟩
  | 28, _, rfl, h => ⟨.ldStVx _, ⟨encXll_of_mask h, rfl⟩, rfl⟩
  | 29, _, rfl, h => ⟨.addI _, ⟨encXll_of_mask h, rfl⟩, rfl⟩
  | 30, _, rfl, h => ⟨.ldF _, ⟨encXll_of_mask h, rfl⟩, rfl⟩
  | 31, _, rfl, h => ⟨.ldB _, ⟨encXll_of_mask h, rfl⟩, rfl⟩
  | 32, _, rfl, h => ⟨.stRegs _, ⟨encXll_of_mask h, rfl⟩, rfl⟩
  | 33, _, rfl, h => ⟨.ldRegs _, ⟨encXll_of_mask h, rfl⟩, rfl⟩

open Laws.EncodeKeepsPattern in
/-- Every instruction's word belongs to the instruction's own row. -/
theorem encode_keepsPattern (i : Instr) : Statement i := by
  cases i
  exacts [cls, ret, jp _, call _, seImm _ _, sneImm _ _, seReg _ _, ldImm _ _, addImm _ _,
    ldReg _ _, orReg _ _, andReg _ _, xorReg _ _, addReg _ _, sub _ _, shr _ _, subn _ _, shl _ _,
    sneReg _ _, ldI _, jpV0 _, rnd _ _, drw _ _ _, skp _, sknp _, ldVxDt _, ldVxK _, ldDtVx _,
    ldStVx _, addI _, ldF _, ldB _, stRegs _, ldRegs _]

/-- Settles O4: a row's words are the encodings of the row's instruction, and those are the words
that decode to it. -/
theorem decoderFollowsOpcodeTable : Obligations.DecoderFollowsOpcodeTable := by
  refine ⟨rfl, fun op k row hrow => ⟨fun h => ?_, ?_⟩⟩
  · obtain ⟨i, hi, hk⟩ := exists_encode_of_row hrow h
    exact ⟨i, decode_eq_ok_iff_encode.2 hi, hk⟩
  · rintro ⟨i, hi, rfl⟩
    obtain ⟨rfl, -⟩ := decode_eq_ok_iff_encode.1 hi
    obtain ⟨row', hrow', haccepts⟩ := encode_keepsPattern i
    cases hrow.symm.trans hrow'
    simpa [OpcodeRow.accepts] using haccepts

/-! ## The unknown words (30_encoding.md R121) -/

section unknown
variable {op : Word}

theorem decode_eq_error_iff : decode op = .error (.unknownOpcode op) ↔ decodeOp op = none := by
  unfold decode
  split
  · next j hj => simp [hj]
  · next hn => simp [hn]

theorem decodeControl_eq_none :
    decodeControl op = none ↔ op.toNat ≠ 0x00E0 ∧ op.toNat ≠ 0x00EE := by
  unfold decodeControl
  split <;> simp_all

theorem decodeArith_eq_none :
    decodeArith op = none ↔ 8 ≤ op.toNat % 16 ∧ op.toNat % 16 ≠ 0xE := by
  have hn := fieldN_toNat op
  unfold decodeArith
  split
  case h_10 =>
    simp only [imp_false, true_iff] at *
    omega
  all_goals
    simp only [reduceCtorEq, false_iff]
    omega

theorem decodeNibbleZero_eq_none {i : Instr} :
    decodeNibbleZero op i = none ↔ op.toNat % 16 ≠ 0 := by
  rw [← fieldN_toNat]
  unfold decodeNibbleZero
  split <;> simp_all

theorem decodeKey_eq_none :
    decodeKey op = none ↔ op.toNat % 256 ≠ 0x9E ∧ op.toNat % 256 ≠ 0xA1 := by
  rw [← fieldKk_toNat]
  unfold decodeKey
  split <;> simp_all

theorem decodeIo_eq_none : decodeIo op = none ↔
    op.toNat % 256 ≠ 0x07 ∧ op.toNat % 256 ≠ 0x0A ∧ op.toNat % 256 ≠ 0x15 ∧
      op.toNat % 256 ≠ 0x18 ∧ op.toNat % 256 ≠ 0x1E ∧ op.toNat % 256 ≠ 0x29 ∧
      op.toNat % 256 ≠ 0x33 ∧ op.toNat % 256 ≠ 0x55 ∧ op.toNat % 256 ≠ 0x65 := by
  rw [← fieldKk_toNat]
  unfold decodeIo
  split <;> simp_all

end unknown

/-- Settles O5, family by family: six families can reject a word, each by its own list. -/
theorem unknownWordsAreThoseListed : Obligations.UnknownWordsAreThoseListed := by
  intro op
  rw [decode_eq_error_iff]
  simp only [← fieldFamily_toNat]
  have hlt := (fieldFamily op).isLt
  unfold decodeOp
  split
  case h_1 hf => simp [hf, decodeControl_eq_none]
  case h_6 hf | h_10 hf => simp [hf, decodeNibbleZero_eq_none]
  case h_9 hf => simp [hf, decodeArith_eq_none]
  case h_15 hf => simp [hf, decodeKey_eq_none]
  case h_16 hf => simp [hf, decodeIo_eq_none]
  case h_17 =>
    exfalso
    simp only [imp_false] at *
    omega
  all_goals
    next hf => simp [hf]

/-- Settles O1: the words are closed, and the decoder computes. -/
theorem specWordsDecodeAsListed : Obligations.SpecWordsDecodeAsListed := by
  unfold Obligations.SpecWordsDecodeAsListed
  decide

namespace Machine

/-! ## A Cycle by what its word decodes to (30_encoding.md R113, R120) -/

theorem runWord_of_decode {op : Word} {i : Instr} (h : decode op = .ok i) (s : State) :
    runWord op s = exec i s := by simp only [runWord, h]

theorem runWord_of_reject {op : Word} {why : DecodeReject} (h : decode op = .error why)
    (s : State) : runWord op s = .next (s.emit (some (.unknown op s.pc))).advance := by
  simp only [runWord, h, skipUnknown]

/-- Settles O8: the word of the two bytes runs as the instruction it decodes to. -/
theorem stepRunsDecodedInstruction : Obligations.StepRunsDecodedInstruction := by
  intro s hi lo rest i hrun hhi hlo hdecode
  have hi' : decode (hi ++ lo) = .ok i := (decodeBytes_eq_ok_iff.1 hdecode).1
  obtain ⟨hfree, hgiven⟩ := step_of_memRead hrun hhi hlo
  exact ⟨fun h => (hfree h).trans (runWord_of_decode hi' _),
    fun r es h => (hgiven r es h).trans (runWord_of_decode hi' _)⟩

/-- The ordinary advance, on numbers (R114). -/
theorem State.advanced_advance {s t : State} (hpc : t.pc = s.pc) : advanced s t.advance := by
  rw [advanced, State.advance_pc, hpc, BitVec.toNat_add]
  rfl

/-- Settles O10: the Cycle fetches the word, and its rule is the skip. -/
theorem unknownOpcodeIsReportedAndSkipped : Obligations.UnknownOpcodeIsReportedAndSkipped := by
  intro s op why hrun hnext hop hreject
  obtain ⟨r, es, hstep⟩ := step_of_cycleNext hnext
  have hcycle := cycle_of_fetch (s := s.withInputs es) r hrun hop
  rw [runWord_of_reject hreject] at hcycle
  exact ⟨_, hstep.trans hcycle, State.advanced_advance rfl, rfl, rfl, rfl, fun _ => rfl⟩

/-! ## A placed word (log 12) -/

/-- PC after a word is placed: kept where a fetch can happen. -/
def State.placePc (s : State) : Word := if s.pc.toNat ≤ 0xFFE then s.pc else 0x200

/-- The running state into which a word is placed. -/
def State.readied (s : State) : State :=
  { s.withInputs [] with halted := false, fault := 0, pc := s.placePc }

theorem State.placePc_le (s : State) : s.placePc.toNat ≤ 0xFFE := by
  unfold State.placePc
  split
  · assumption
  · decide

theorem State.placePc_eq {s : State} (h : s.pc.toNat ≤ 0xFFE) : s.placePc = s.pc := if_pos h

/-- The word is placed by one write of its two bytes. -/
theorem placeWord_eq (s : State) (op : Word) : placeWord s op =
    (s.readied.writeBytes s.placePc.toNat [hiByte op, loByte op]).getD s.readied := by
  unfold placeWord State.readied State.placePc
  split <;> rfl

/-- Everything placing a word does: it stands at the new PC, and the memory changes nowhere else. -/
theorem placeWord_spec (s : State) (op : Word) :
    placeWord s op = { s.readied with mem := (placeWord s op).mem } ∧
      (placeWord s op).fetch16 s.placePc.toNat = some op ∧
      ∀ a, a ≠ s.placePc.toNat → a ≠ s.placePc.toNat + 1 →
        (placeWord s op).memRead a = s.memRead a := by
  have hle := s.placePc_le
  obtain ⟨hnone, hsome⟩ :=
    s.readied.writeBytes_spec s.placePc.toNat [hiByte op, loByte op]
  rw [placeWord_eq]
  cases hw : s.readied.writeBytes s.placePc.toNat [hiByte op, loByte op] with
  | none =>
    have hlast := (hnone.1 hw).2
    simp only [List.length_cons, List.length_nil] at hlast
    omega
  | some t =>
    obtain ⟨hframe, hread, hother, -⟩ := hsome t hw
    refine ⟨hframe, ?_, fun a h0 h1 => hother a ?_⟩
    · have hfetch := State.fetch16_of_memRead (hread 0 Nat.two_pos) (hread 1 Nat.one_lt_two)
      exact hfetch.trans (congrArg some (wordOf_bytes op))
    · simp only [List.length_cons, List.length_nil]
      omega

/-- Placing a word of 16 bits loses nothing of it. -/
theorem State.withFetchWord_toNat (s : State) (op : Word) :
    s.withFetchWord 16 op.toNat = placeWord s op := by
  rw [State.withFetchWord, Nat.mod_eq_of_lt op.isLt, BitVec.ofNat_toNat, BitVec.setWidth_eq]

/-- Settles O13: the step fetches the placed word, and the word runs as its instruction. -/
theorem placedWordIsTheNextInstruction : Obligations.PlacedWordIsTheNextInstruction := by
  intro s i hwf
  rw [State.withFetchWord_toNat]
  obtain ⟨hframe, hfetch, hother⟩ := placeWord_spec s (encode i)
  generalize placeWord s (encode i) = t at hframe hfetch hother
  have hpc : t.pc = s.placePc := congrArg State.pc hframe
  have hrun : t.halted = false := congrArg State.halted hframe
  have henv : t.env = s.readied.env := (congrArg State.env hframe :)
  rw [← hpc] at hfetch hother
  have hstep : step t = exec i (t.accept none) := by
    rw [step_noInput (congrArg Env.inputs henv), cycle_of_fetch none hrun hfetch,
      runWord_encode hwf]
  refine ⟨t.accept none, hstep, hrun, ?_, (congrArg Env.font henv :),
    fun h => hpc.trans (State.placePc_eq h), hother⟩
  rw [hframe]
  rfl

end Machine
end Sys2Proof
end

section
/-! PROOFS. Jumps, calls, returns and skips: the statements of 40_control_flow.md. The call and the
return each get an equation on either side of their condition on SP; the four skips share one lemma
about `State.skipIf`. -/

namespace Sys2Proof.Machine

/-! ## PC as a number (30_encoding.md R114, 40_control_flow.md R159) -/

/-- Zero-extending the 12-bit operand keeps its number. -/
theorem zextAddr_toNat (a : Addr12) : (zextAddr a).toNat = a.toNat :=
  BitVec.toNat_setWidth_of_le (by decide)

/-- The 16-bit sum of a byte and a 12-bit address never wraps. -/
theorem toNat_zext16_add_zextAddr (b : Byte) (a : Addr12) :
    (zext16 b + zextAddr a).toNat = b.toNat + a.toNat := by
  have hb : (zext16 b).toNat = b.toNat := BitVec.toNat_setWidth_of_le (by decide)
  rw [BitVec.toNat_add_of_lt (by rw [hb, zextAddr_toNat]; omega), hb, zextAddr_toNat]

/-- A skip does what R159 says of it, whatever its condition is. -/
theorem State.skippedIf_skipIf (s : State) (c : Prop) [Decidable c] :
    skippedIf s (s.skipIf (decide c)) c := by
  refine ⟨fun hc => ?_, fun hc => ?_, rfl, fun _ => rfl⟩
  · rw [State.skipIf_pc, decide_eq_true hc, if_pos rfl, BitVec.add_assoc, BitVec.toNat_add]
    rfl
  · rw [State.skipIf_pc, decide_eq_false hc, if_neg Bool.false_ne_true, BitVec.toNat_add]
    rfl

/-! ## The call and the return on each side of their condition (10_state.md R40) -/

section stack
variable {s : State} (nnn : Addr12)

/-- With an entry free the call pushes and jumps. -/
theorem exec_call_of_lt (h : s.sp.toNat < 16) : exec (.call nnn) s = .next
    { s with stack := s.stack.set s.sp.toNat s.npc h, sp := s.sp + 1, pc := zextAddr nnn } := by
  rcases exec_call_cases s nnn with ⟨hfull, -⟩ | ⟨_, hcall⟩ | ⟨hgt, -⟩
  · omega
  · exact hcall
  · omega

/-- With all 16 entries in use the call overflows. -/
theorem exec_call_of_full (h : s.sp.toNat = 16) :
    exec (.call nnn) s = .next (s.halt .stackOverflow) := by
  rcases exec_call_cases s nnn with ⟨-, hfault⟩ | ⟨hlt, -⟩ | ⟨hgt, -⟩
  · exact hfault
  · omega
  · omega

/-- With entry k the last in use the return goes to it. -/
theorem exec_ret_of_succ (k : Fin 16) (h : s.sp.toNat = k.val + 1) :
    exec .ret s = .next { s with sp := s.sp - 1, pc := s.stack[k] } := by
  rcases exec_ret_cases s with ⟨hempty, -⟩ | ⟨j, hj, -, hret⟩ | ⟨hgt, -⟩
  · omega
  · obtain rfl : j = k := Fin.ext (by omega)
    exact hret
  · omega

/-- With no entry in use the return underflows. -/
theorem exec_ret_of_empty (h : s.sp.toNat = 0) :
    exec .ret s = .next (s.halt .stackUnderflow) := by
  rcases exec_ret_cases s with ⟨-, hfault⟩ | ⟨k, hk, -⟩ | ⟨hgt, -⟩
  · exact hfault
  · omega
  · omega

/-- A return undoes a call, but for the entry that the call wrote. -/
theorem exec_ret_of_called (h : s.sp.toNat < 16) (w : Word) :
    exec .ret { s with stack := s.stack.set s.sp.toNat s.npc h, sp := s.sp + 1, pc := w } =
      .next { s with stack := s.stack.set s.sp.toNat s.npc h, pc := s.npc } := by
  have hsp : (s.sp + 1).toNat = s.sp.toNat + 1 := (s.push_spec s.npc h).2
  have htop : (s.stack.set s.sp.toNat s.npc h)[s.sp.toNat] = s.npc := Vector.getElem_set_self h
  refine (exec_ret_of_succ ⟨s.sp.toNat, h⟩ hsp).trans ?_
  simp only [BitVec.add_sub_cancel, Fin.getElem_fin, htop]

end stack

/-! ## The statements -/

/-- Settles O33. -/
theorem jumpSetsPc : Obligations.JumpSetsPc :=
  fun _ nnn => ⟨_, rfl, zextAddr_toNat nnn, rfl, fun _ => rfl⟩

/-- Settles O34: the sum is too small to wrap. -/
theorem jumpV0AddsWithoutReduction : Obligations.JumpV0AddsWithoutReduction :=
  fun s nnn => ⟨_, rfl, toNat_zext16_add_zextAddr (s.readV 0) nnn, rfl, fun _ => rfl⟩

/-- Settles O38: each of the four is a skip on its condition. -/
theorem compareAndSkip : Obligations.CompareAndSkip := fun s x y kk =>
  ⟨⟨_, rfl, s.skippedIf_skipIf (s.readV x = kk)⟩,
    ⟨_, rfl, s.skippedIf_skipIf (s.readV x ≠ kk)⟩,
    ⟨_, rfl, s.skippedIf_skipIf (s.readV x = s.readV y)⟩,
    ⟨_, rfl, s.skippedIf_skipIf (s.readV x ≠ s.readV y)⟩⟩

/-- Settles O35: the entry at SP is npc, and the others are those of before. -/
theorem callPushesTheNextAddress : Obligations.CallPushesTheNextAddress := by
  intro s nnn
  refine ⟨fun h => ?_, exec_call_of_full nnn⟩
  have hnpc : s.npc.toNat = (s.pc.toNat + 2) % 65536 := State.advanced_advance (s := s) rfl
  have htop : (s.stack.set s.sp.toNat s.npc h)[s.sp.toNat] = s.npc := Vector.getElem_set_self h
  exact ⟨_, exec_call_of_lt nnn h, (congrArg BitVec.toNat htop).trans hnpc,
    fun k hk => Vector.getElem_set_ne h k.isLt hk.symm, (s.push_spec s.npc h).2, zextAddr_toNat nnn,
    rfl, fun _ => rfl⟩

/-- Settles O36. -/
theorem returnPopsTheTarget : Obligations.ReturnPopsTheTarget := fun s =>
  ⟨fun k hk => ⟨_, exec_ret_of_succ k hk, (s.pop_spec k hk).2, rfl, rfl, fun _ => rfl⟩,
    exec_ret_of_empty⟩

/-- Settles O37: the return pops the npc that the call pushed. -/
theorem callThenReturnRestoresPcAndSp : Obligations.CallThenReturnRestoresPcAndSp :=
  fun s nnn h => ⟨_, _, exec_call_of_lt nnn h, exec_ret_of_called h (zextAddr nnn),
    State.advanced_advance (s := s) rfl, rfl, fun k hk => Vector.getElem_set_ne h k.isLt hk.symm,
    rfl, fun _ => rfl⟩

end Sys2Proof.Machine
end

section
/-! PROOFS. Loads, arithmetic, logic, the index and the random byte: the statements of
41_load_alu.md. One lemma says what a plain register write does and one what the shared end of the
flag writers does; what is left of each instruction is its value as a number. -/

namespace Sys2Proof.Machine

/-! ## What the two kinds of register write leave -/

/-- A register written before the advance is all that the two together change. -/
theorem State.wroteV_advance_writeV (s : State) (x : Reg) (b : Byte) :
    wroteV s (s.writeV x b).advance x b :=
  ⟨s.readV_writeV_same x b, fun _ hz => s.readV_writeV_other b hz, State.advanced_advance rfl, rfl,
    fun _ => rfl⟩

/-- The shared end of the flag writers does what R188 says of it, for a result and a flag that are
`result` and `flag` as numbers. -/
theorem State.wroteFlagged_finishFlagged (s : State) (x : Reg) {p : Byte × Byte} {result : Nat}
    {flag : Prop} [Decidable flag] (hresult : p.1.toNat = result)
    (hflag : p.2 = flagByte (decide flag)) :
    wroteFlagged s (s.finishFlagged x p) x result flag := by
  obtain ⟨hx, hvf, hother, hframe⟩ := s.finishFlagged_spec x p
  refine ⟨(congrArg BitVec.toNat hx).trans hresult, fun hne => ⟨fun hc => ?_, fun hc => ?_⟩, hother,
    State.advanced_advance rfl, hframe, fun _ => rfl⟩
  · rw [hvf hne, hflag, decide_eq_true hc, flagByte_true]
  · rw [hvf hne, hflag, decide_eq_false hc, flagByte_false]

/-! ## The bits that the shifts move out, as numbers (R178, R181) -/

theorem aluShr_flag (a : Byte) : (aluShr a).2 = flagByte (decide (a.toNat % 2 = 1)) :=
  congrArg flagByte (Nat.testBit_zero a.toNat)

theorem aluShl_flag (a : Byte) : (aluShl a).2 = flagByte (decide (128 ≤ a.toNat)) :=
  congrArg flagByte (BitVec.msb_eq_decide a)

/-! ## The values of I, as numbers (R184, R185) -/

theorem zext16_toNat (b : Byte) : (zext16 b).toNat = b.toNat :=
  BitVec.toNat_setWidth_of_le (by decide)

/-- The glyph address never wraps: 255 * 5 fits 16 bits. -/
theorem glyphAddr_toNat (b : Byte) : (glyphAddr b).toNat = b.toNat * 5 := by
  have hlt : (zext16 b).toNat * (5 : Word).toNat < 2 ^ 16 := by
    rw [zext16_toNat]
    exact lt_of_lt_of_le (Nat.mul_lt_mul_of_pos_right b.isLt (by decide)) (by decide)
  rw [glyphAddr, BitVec.toNat_mul_of_lt hlt, zext16_toNat]
  rfl

/-- Boot puts the font at address 0 (70_reset_and_hazards.md R312). -/
theorem State.memRead_boot_font (s : State) (rom : List Byte) {a : Nat} (ha : a < 80) :
    (s.boot rom).memRead a = some (s.env.font[a]?.getD 0) := by
  rw [s.memRead_boot rom a (by omega), if_neg (by omega), background]

/-! ## The statements -/

/-- Settles O43: the shared end of the flag writers, with the sum and its carry. -/
theorem addSetsTheCarry : Obligations.AddSetsTheCarry := fun s x _ =>
  ⟨_, rfl, s.wroteFlagged_finishFlagged x (aluAdd_result _ _) rfl⟩

/-- Settles O44: 8xy5 and 8xy7 are one subtraction, with the operands exchanged. -/
theorem subtractSetsStrictlyGreater : Obligations.SubtractSetsStrictlyGreater := fun s x _ =>
  ⟨⟨_, rfl, s.wroteFlagged_finishFlagged x (subMod_toNat _ _) rfl⟩,
    ⟨_, rfl, s.wroteFlagged_finishFlagged x (subMod_toNat _ _) rfl⟩⟩

/-- Settles O45: the shared end again, with the halved or doubled byte and the bit moved out. -/
theorem shiftsMoveOneBit : Obligations.ShiftsMoveOneBit := fun s x _ =>
  ⟨⟨_, rfl, s.wroteFlagged_finishFlagged x (aluShr_result _) (aluShr_flag _)⟩,
    ⟨_, rfl, s.wroteFlagged_finishFlagged x (aluShl_result _) (aluShl_flag _)⟩⟩

/-- Settles O52: the address of the glyph lies in the font, which no ROM reaches. -/
theorem glyphAddressPointsAtTheGlyph : Obligations.GlyphAddressPointsAtTheGlyph := by
  intro s t rom x b hb h k
  have hlt : 5 * b.toNat + k.val < 80 := by omega
  cases h
  have haddr : (glyphAddr (((s.boot rom).writeV x b).readV x)).toNat + k.val =
      5 * b.toNat + k.val := by
    rw [State.readV_writeV_same, glyphAddr_toNat, Nat.mul_comm]
  refine ⟨?_, hlt⟩
  rw [State.effAddr, State.advance_i, haddr]
  exact s.memRead_boot_font rom hlt

/-- Settles O40: both are plain register writes. -/
theorem loadsCopyTheirOperand : Obligations.LoadsCopyTheirOperand := fun s x _ _ =>
  ⟨⟨_, rfl, s.wroteV_advance_writeV x _⟩, ⟨_, rfl, s.wroteV_advance_writeV x _⟩⟩

/-- Settles O41: a plain register write, so VF is written only as the destination. -/
theorem addImmediateWrapsWithoutCarry : Obligations.AddImmediateWrapsWithoutCarry := fun s x kk =>
  ⟨_, _, rfl, s.wroteV_advance_writeV x _, BitVec.toNat_add (s.readV x) kk⟩

/-- Settles O42: plain register writes of values that the library knows bit by bit. -/
theorem logicWritesOnlyItsDestination : Obligations.LogicWritesOnlyItsDestination := fun s x _ =>
  ⟨⟨_, _, rfl, s.wroteV_advance_writeV x _, fun _ => BitVec.getLsbD_or⟩,
    ⟨_, _, rfl, s.wroteV_advance_writeV x _, fun _ => BitVec.getLsbD_and⟩,
    ⟨_, _, rfl, s.wroteV_advance_writeV x _, fun _ => BitVec.getLsbD_xor⟩⟩

/-- Settles O46: the 12-bit operand keeps its number in I. -/
theorem loadIndexSetsI : Obligations.LoadIndexSetsI := fun _ nnn =>
  ⟨_, rfl, zextAddr_toNat nnn, State.advanced_advance rfl, rfl, fun _ => rfl⟩

/-- Settles O47: the sum wraps at 16 bits, the product does not reach them. -/
theorem indexAddAndGlyphAddress : Obligations.IndexAddAndGlyphAddress := by
  intro s x
  have hsum : (s.i + zext16 (s.readV x)).toNat = (s.i.toNat + (s.readV x).toNat) % 65536 := by
    rw [BitVec.toNat_add, zext16_toNat]
  exact ⟨⟨_, rfl, hsum, State.advanced_advance rfl, rfl, fun _ => rfl⟩,
    ⟨_, rfl, glyphAddr_toNat (s.readV x), State.advanced_advance rfl, rfl, fun _ => rfl⟩⟩

/-- Settles O48: the byte is `State.randByte`, which is the host's where one is given. -/
theorem randomIsMasked : Obligations.RandomIsMasked := by
  intro s x kk
  have hgiven : ∀ b, s.env.rand = some b → s.randByte = b := fun b hb => by
    rw [State.randByte, hb, Option.getD_some]
  exact ⟨_, s.randByte, rfl, hgiven, s.readV_writeV_same x _,
    fun _ hz => s.readV_writeV_other _ hz, State.advanced_advance rfl, rfl, fun _ => rfl⟩

end Sys2Proof.Machine
end

section
/-! PROOFS. The screen: the statements of 42_display.md. A sprite in range is the plotting of
different pixels, and these are the pixels that `spriteCovers` names; what plotting does to the screen
then says what Dxyn does. -/

namespace Sys2Proof.Machine

/-! ## Screens and sprites -/

/-- A screen is its pixels. -/
theorem State.fb_eq_of_pixel {s t : State} (h : ∀ r c, t.pixel r c = s.pixel r c) : t.fb = s.fb :=
  Vector.ext fun r hr => BitVec.eq_of_getLsbD_eq fun c hc => h ⟨r, hr⟩ ⟨c, hc⟩

/-- Which pixels a sprite covers depends on I, the memory and the two coordinates alone. -/
theorem spriteCovers_congr {s t : State} {x y : Reg} (hi : t.i = s.i) (hmem : sameMemory s t)
    (hx : t.readV x = s.readV x) (hy : t.readV y = s.readV y) (n : Nat) (r : Fin 32) (c : Fin 64) :
    spriteCovers t x y n r c ↔ spriteCovers s x y n r c := by
  have haddr (k : Nat) : t.effAddr k = s.effAddr k := congrArg (·.toNat + k) hi
  simp only [spriteCovers, haddr, hmem _, hx, hy]

/-- The points of the bytes at I are the pixels that the sprite covers. -/
theorem mem_spritePoints_iff_spriteCovers {s : State} {n : Nat} {bs : List Byte}
    (h : s.readBytes (s.effAddr 0) n = some bs) (x y : Reg) (p : Fin 32 × Fin 64) :
    p ∈ spritePoints (s.readV x).toNat (s.readV y).toNat bs ↔ spriteCovers s x y n p.1 p.2 := by
  obtain ⟨hlen, hread⟩ := s.readBytes_some h
  rw [mem_spritePoints]
  constructor
  · rintro ⟨k, bit, b, hk, hbit, hset, hrow, hcol⟩
    have hlt : k < n := hlen ▸ (List.getElem?_eq_some_iff.1 hk).1
    exact ⟨k, bit, b, hlt, hbit, (hread k hlt).trans hk, hset, hrow, hcol⟩
  · rintro ⟨k, bit, b, hlt, hbit, hb, hset, hrow, hcol⟩
    exact ⟨k, bit, b, (hread k hlt).symm.trans hb, hbit, hset, hrow, hcol⟩

/-- With its rows in memory Dxyn clears VF, plots each pixel of the sprite once, and advances. -/
theorem exec_drw_of_range {s : State} {n : Nat} (x y : Reg) (hn : n ≤ 32)
    (hr : n = 0 ∨ s.i.toNat + n - 1 ≤ 0xFFF) :
    ∃ ps : List (Fin 32 × Fin 64), ps.Nodup ∧ (∀ p, p ∈ ps ↔ spriteCovers s x y n p.1 p.2) ∧
      exec (.drw x y n) s = .next ((s.writeV VF 0).plotAll ps).advance := by
  rcases exec_drw_cases s x y n with ⟨hpos, hgt, -⟩ | ⟨-, bs, hbs, hexec⟩
  · omega
  · have hlen : bs.length ≤ 32 := (s.readBytes_some hbs).1.trans_le hn
    exact ⟨_, nodup_spritePoints _ _ hlen, mem_spritePoints_iff_spriteCovers hbs x y, hexec⟩

/-! ## The statements -/

/-- Settles O49: the cleared rows are zero words. -/
theorem clearScreenForcesRedraw : Obligations.ClearScreenForcesRedraw := by
  intro s
  refine ⟨_, rfl, fun r c => ?_, rfl, State.advanced_advance rfl, rfl, fun _ => rfl⟩
  simp [State.pixel]

/-- Settles O50: VF is cleared, then the covered pixels, all different, are plotted. -/
theorem drawTogglesTheSprite : Obligations.DrawTogglesTheSprite := by
  intro s x y n hwf hr
  have hn : n < 16 := of_decide_eq_true hwf
  obtain ⟨ps, hnodup, hcovers, hexec⟩ := exec_drw_of_range x y (by omega) hr
  obtain ⟨hframe, hredraw, hregs⟩ := (s.writeV VF 0).plotAll_frame ps
  obtain ⟨hpixel, hhit, hmiss⟩ := (s.writeV VF 0).plotAll_spec hnodup
  have hsome : ps ≠ [] ↔ ∃ r c, spriteCovers s x y n r c := by
    simp only [Ne, List.eq_nil_iff_forall_not_mem, not_forall, not_not, Prod.exists, hcovers]
  have hcollides : (∃ p ∈ ps, s.pixel p.1 p.2 = true) ↔
      ∃ r c, spriteCovers s x y n r c ∧ s.pixel r c = true := by
    simp only [Prod.exists, hcovers]
  refine ⟨_, hexec, fun r c => ⟨fun h => ?_, fun h => ?_⟩, fun h => hhit (hcollides.2 h),
    fun h => ?_, hredraw.trans (or_congr_right hsome), fun z hz => ?_,
    State.advanced_advance (congrArg State.pc hframe :), ?_, ?_⟩
  · have hin : (r, c) ∈ ps := (hcovers (r, c)).2 h
    rw [State.pixel_advance, hpixel, State.pixel_writeV, decide_eq_true hin, Bool.xor_true]
  · have hout : (r, c) ∉ ps := mt (hcovers (r, c)).1 h
    rw [State.pixel_advance, hpixel, State.pixel_writeV, decide_eq_false hout, Bool.xor_false]
  · exact (hmiss (mt hcollides.1 h)).trans (s.readV_writeV_same VF 0)
  · exact (hregs z hz).trans (s.readV_writeV_other 0 hz)
  · rw [hframe]
    rfl
  · exact State.memRead_congr (congrArg State.mem hframe :) (congrArg (·.env.font) hframe :)

/-- Settles O51: the first draw leaves I, the memory and both coordinates, so the second toggles the
same pixels again, and hits those that the first turned on. -/
theorem drawingTwiceRestoresTheScreen : Obligations.DrawingTwiceRestoresTheScreen := by
  intro s x y n hwf hx hy hr
  obtain ⟨t, ht, htoggled, -, -, -, hregs, -, hframe, hmem⟩ := drawTogglesTheSprite s x y n hwf hr
  have hi : t.i = s.i := (congrArg State.i hframe :)
  obtain ⟨u, hu, htoggled', hhit, -⟩ := drawTogglesTheSprite t x y n hwf (hi ▸ hr)
  have hsame := spriteCovers_congr hi hmem (hregs x hx) (hregs y hy) n
  refine ⟨t, u, ht, hu, State.fb_eq_of_pixel fun r c => ?_, fun ⟨r, c, hc⟩ hclear => ?_⟩
  · obtain ⟨hflip, hkeep⟩ := htoggled r c
    obtain ⟨hflip', hkeep'⟩ := htoggled' r c
    by_cases hc : spriteCovers s x y n r c
    · rw [hflip' ((hsame r c).2 hc), hflip hc, Bool.not_not]
    · rw [hkeep' (mt (hsame r c).1 hc), hkeep hc]
  · have hon : t.pixel r c = true := by
      rw [(htoggled r c).1 hc, hclear r c hc, Bool.not_false]
    exact hhit ⟨r, c, (hsame r c).2 hc, hon⟩

end Sys2Proof.Machine
end

section
/-! PROOFS. Keys and timers: the statements of 43_keys_timers.md. The latch is read at one number, so
each key skip is a skip on a condition, and the wait of Fx0A is the key search. -/

namespace Sys2Proof.Machine

/-! ## The key skips as skips on the latch -/

section keys
variable (s : State) (x : Reg)

/-- The key that Ex9E and ExA1 test, by its number (R226). -/
theorem State.keyOf_eq : s.keyOf x = s.keys.getLsbD ((s.readV x).toNat % 16) := by
  rw [State.keyOf, State.key, BitVec.extractLsb'_toNat, Nat.shiftRight_zero]

theorem exec_skp : exec (.skp x) s =
    .next (s.skipIf (decide (s.keys.getLsbD ((s.readV x).toNat % 16) = true))) := by
  rw [Bool.decide_eq_true, ← s.keyOf_eq]
  rfl

theorem exec_sknp : exec (.sknp x) s =
    .next (s.skipIf (decide (s.keys.getLsbD ((s.readV x).toNat % 16) = false))) := by
  rw [Bool.decide_eq_false, ← s.keyOf_eq]
  rfl

end keys

/-! ## The statements -/

/-- Settles O54: the wait ends exactly when the key search finds a key, which is the lowest. -/
theorem waitForKeyStoresTheLowest : Obligations.WaitForKeyStoresTheLowest := by
  intro s x
  obtain ⟨hnone, hsome⟩ := s.lowestKey_spec
  rcases exec_ldVxK_cases s x with ⟨hk, hexec⟩ | ⟨k, hk, hexec⟩
  · exact ⟨fun _ => hexec, fun hkeys => absurd (hnone.1 hk) hkeys⟩
  · obtain ⟨hlt, hpressed, hlowest⟩ := hsome k hk
    have hkeys : s.keys ≠ 0 := fun h => Option.some_ne_none k (hk.symm.trans (hnone.2 h))
    exact ⟨fun h => absurd h hkeys,
      fun _ => ⟨_, ⟨k, hlt⟩, hexec, hpressed, hlowest, s.wroteV_advance_writeV x _⟩⟩

/-- Settles O53: the two skip on the two values of the same key. -/
theorem keySkipsFollowTheLatch : Obligations.KeySkipsFollowTheLatch := fun s x =>
  ⟨⟨_, exec_skp s x, s.skippedIf_skipIf _⟩, ⟨_, exec_sknp s x, s.skippedIf_skipIf _⟩⟩

/-- Settles O55: a plain register write, and two writes of one timer each. -/
theorem timerMovesCopyTheByte : Obligations.TimerMovesCopyTheByte := fun s x =>
  ⟨⟨_, rfl, s.wroteV_advance_writeV x _⟩,
    ⟨_, rfl, rfl, State.advanced_advance rfl, rfl, fun _ => rfl⟩,
    ⟨_, rfl, rfl, State.advanced_advance rfl, rfl, fun _ => rfl⟩⟩

end Sys2Proof.Machine
end

section
/-! PROOFS. Memory instructions: the statements of 44_memory_ops.md. Fx33 and Fx55 differ only in the
bytes that they store, so what a store does is said once; Fx65 is the read of a range into registers. -/

namespace Sys2Proof.Machine

/-! ## What a store in range does -/

/-- The k-th stored byte, read at its effective address. -/
theorem byteAfter_effAddr {i : Instr} {s : State} {k : Nat} {b : Byte}
    (h : (storedBytes i s)[k]? = some b) : byteAfter i s (s.effAddr k) = some b :=
  (byteAfter_stored (List.getElem?_eq_some_iff.1 h).1).trans h

/-- With no fault listed an instruction that stores n + 1 bytes puts them at I to I + n and advances,
and nothing else changes. -/
theorem exec_store_of_no_fault {i : Instr} {s : State} {n : Nat} (hi : storesMemory i)
    (hf : faultOf i s = none) (hlen : (storedBytes i s).length = n + 1) :
    ∃ t, exec i s = .next t ∧
      (∀ k b, (storedBytes i s)[k]? = some b → t.memRead (s.effAddr k) = some b) ∧
      advanced s t ∧ t = { s with mem := t.mem, pc := t.pc } ∧
      ∀ a, a < s.effAddr 0 ∨ s.effAddr n < a → t.memRead a = s.memRead a := by
  rcases exec_store_cases hi s with ⟨hc, -⟩ | ⟨u, hu, hexec⟩
  · cases hf.symm.trans hc
  · have hframe := ((s.writeBytes_spec _ _).2 u hu).1
    refine ⟨_, hexec, fun k b hk => (memRead_of_writeBytes hu _).trans (byteAfter_effAddr hk),
      State.advanced_advance (congrArg State.pc hframe :), ?_, fun a ha => ?_⟩
    · rw [hframe]
      rfl
    · refine (memRead_of_writeBytes hu a).trans (byteAfter_outside ?_)
      simp only [State.effAddr] at ha ⊢
      omega

/-- The stored digits of R240 are the decimal digits of the byte, hundreds first. -/
theorem bcdDigits_spec (b : Byte) : ∃ h d o : Byte, bcdDigits b = [h, d, o] ∧
    h.toNat * 100 + d.toNat * 10 + o.toNat = b.toNat ∧ h.toNat ≤ 9 ∧ d.toNat ≤ 9 ∧ o.toNat ≤ 9 := by
  have hb := b.isLt
  refine ⟨_, _, _, rfl, ?_⟩
  simp only [BitVec.toNat_ofNat]
  omega

/-! ## The statements -/

/-- Settles O56: the three stored bytes are the digits. -/
theorem bcdStoresThreeDigits : Obligations.BcdStoresThreeDigits := by
  intro s x hr
  have hf : faultOf (.ldB x) s = none := if_neg (by omega)
  obtain ⟨h, d, o, hbytes, hsum, hh, hd, ho⟩ := bcdDigits_spec (s.readV x)
  have hstored : storedBytes (.ldB x) s = [h, d, o] := hbytes
  obtain ⟨t, hexec, hread, hpc, hframe, hother⟩ :=
    exec_store_of_no_fault (n := 2) (.inl ⟨x, rfl⟩) hf (congrArg List.length hstored)
  rw [hstored] at hread
  exact ⟨t, h, d, o, hexec, hread 0 h rfl, hread 1 d rfl, hread 2 o rfl, hsum, hh, hd, ho, hpc,
    hframe, hother⟩

/-- Settles O57: the k-th stored byte is V[k]. -/
theorem registerDumpStoresEachRegister : Obligations.RegisterDumpStoresEachRegister := by
  intro s x hr
  have hf : faultOf (.stRegs x) s = none := if_neg (by omega)
  obtain ⟨hlen, hregs⟩ := s.regsUpTo_spec x
  obtain ⟨t, hexec, hread, hpc, hframe, hother⟩ :=
    exec_store_of_no_fault (.inr ⟨x, rfl⟩) hf hlen
  exact ⟨t, hexec, fun z hz => hread z.toNat _ (hregs z hz), hpc, hframe, hother⟩

/-- Settles O58: x + 1 bytes are read, so exactly V[0] to V[x] have a byte to get. -/
theorem registerLoadReadsEachRegister : Obligations.RegisterLoadReadsEachRegister := by
  intro s x hr
  rcases exec_ldRegs_cases s x with ⟨hgt, -⟩ | ⟨-, bs, hbs, hexec⟩
  · omega
  · obtain ⟨hlen, hread⟩ := s.readBytes_some hbs
    obtain ⟨hframe, hregs⟩ := s.writeRegsFrom_spec 0 bs
    have hreg (z : Reg) :
        (s.writeRegsFrom 0 bs).advance.readV z = bs[z.toNat]?.getD (s.readV z) :=
      (hregs z).trans (if_pos (Nat.zero_le _))
    refine ⟨_, hexec, fun z hz => ?_, fun z hz => ?_,
      State.advanced_advance (congrArg State.pc hframe :), ?_, ?_⟩
    · have hbyte : bs[z.toNat]? = some bs[z.toNat] := List.getElem?_eq_getElem (by omega)
      rw [hreg, hbyte, Option.getD_some, ← hbyte]
      exact hread z.toNat (by omega)
    · rw [hreg, List.getElem?_eq_none (by omega), Option.getD_none]
    · rw [hframe]
      rfl
    · exact State.memRead_congr (congrArg State.mem hframe :) (congrArg (·.env.font) hframe :)

end Sys2Proof.Machine
end

section
/-! PROOFS. Faults, timers and coinciding events: the statements of 60_exceptions.md. A run of ticks
is one induction on their number; coinciding events are a run of the latches, a Cycle and a tick. -/

namespace Sys2Proof.Machine

/-! ## Faults and the halt (60_exceptions.md R260 to R264) -/

/-- Settles O14, by the inversion of `exec` on the listed fault. -/
theorem instructionsFaultExactlyAsListed : Obligations.InstructionsFaultExactlyAsListed := by
  intro i s hsp
  refine ⟨fun c hc => ?_, fun hf => exec_of_no_fault hf hsp⟩
  rcases exec_fault_cases i s with ⟨d, hd, hexec⟩ | ⟨hnone, -⟩ | ⟨hgt, -⟩
  · cases hd.symm.trans hc
    exact hexec
  · cases hnone.symm.trans hc
  · omega

/-- Settles O11: the Cycle only takes the random byte. -/
theorem haltedCycleChangesNothing : Obligations.HaltedCycleChangesNothing := by
  intro s hhalt hnext
  obtain ⟨r, es, hstep⟩ := step_of_cycleNext hnext
  exact ⟨_, hstep.trans (cycle_halted (s := s.withInputs es) r hhalt), ⟨rfl, rfl, fun _ => rfl⟩, rfl⟩

/-! ## Runs of ticks (60_exceptions.md R275 to R279) -/

/-- A timer at 0 stays there. -/
theorem countDown_of_zero {t : Byte} (h : t.toNat = 0) : countDown t = 0 :=
  BitVec.eq_of_toNat_eq (by rw [countDown_toNat, h]; rfl)

/-- A timer that has lost k from n, not below 0, is still above 0 exactly when k is less than n. -/
theorem decide_pos_of_toNat_eq_sub {t : Byte} {n k : Nat} (h : t.toNat = n - k) :
    decide (t.toNat > 0) = decide (k < n) := decide_eq_decide.2 (by omega)

/-- With k + 1 ticks pending, k steps take k off each timer and leave the last tick pending. -/
theorem runSteps_ticks {s : State} (k : Nat) {es : List Event}
    (h : s.env.inputs = List.replicate (k + 1) .timerTick ++ es) :
    ∃ dt st env, runSteps k s = .next { s with dt := dt, st := st, env := env } ∧
      dt.toNat = s.dt.toNat - k ∧ st.toNat = s.st.toNat - k ∧
      env.inputs = .timerTick :: es ∧ env.font = s.env.font := by
  induction k generalizing s with
  | zero => exact ⟨s.dt, s.st, s.env, rfl, rfl, rfl, h, rfl⟩
  | succ k ih =>
    obtain ⟨dt, st, env, hrun, hdt, hst, hin, hfont⟩ :=
      ih (s := (s.withInputs (List.replicate (k + 1) .timerTick ++ es)).timerTick) rfl
    refine ⟨dt, st, env, (runSteps_succ k (step_timerTick h)).trans hrun, ?_, ?_, hin, hfont⟩
    · rw [hdt, State.timerTick_dt, countDown_toNat, State.withInputs_dt]
      omega
    · rw [hst, State.timerTick_st, countDown_toNat, State.withInputs_st]
      omega

/-- A Cycle of a running core that fetches the word of an instruction runs that instruction. -/
theorem step_cycle_encode {s : State} {i : Instr} {r : Byte} {es : List Event}
    (hwf : i.wf = true) (hrun : s.halted = false)
    (hop : s.fetch16 s.pc.toNat = some (encode i)) (h : s.env.inputs = .cycle r :: es) :
    step s = exec i ((s.withInputs es).accept (some r)) :=
  (step_cycle h).trans ((cycle_of_fetch (s := s.withInputs es) _ hrun hop).trans
    (runWord_encode hwf _))

/-- Settles O29. -/
theorem timerTickCountsDownAndBeeps : Obligations.TimerTickCountsDownAndBeeps :=
  fun s _ h => ⟨_, step_timerTick h, fun _ => countDown_toNat s.dt, countDown_of_zero,
    fun _ => countDown_toNat s.st, countDown_of_zero, rfl, rfl, rfl, rfl, fun _ => rfl⟩

/-- Settles O30: the run of ticks, from the state itself or from the one that the Fx18 leaves. -/
theorem ticksRunTheTimersDown : Obligations.TicksRunTheTimersDown := by
  intro s k es
  refine ⟨fun h => ?_, fun x r hrun hop h => ?_⟩
  · obtain ⟨dt, st, env, hticks, hdt, hst, hin, hfont⟩ := runSteps_ticks k h
    have hbeep := decide_pos_of_toNat_eq_sub hst
    exact ⟨_, _, hticks, step_timerTick hin, hdt, hst, hbeep,
      congrArg (some <| Output.beep ·) hbeep, rfl, rfl, hfont, State.memRead_congr rfl hfont⟩
  · have hstep := step_cycle_encode rfl hrun hop h
    obtain ⟨dt, st, env, hticks, -, hst, hin, -⟩ := runSteps_ticks k (es := es)
      (s := State.advance { (s.withInputs _).accept (some r) with st := s.readV x }) rfl
    exact ⟨_, _, _, hstep, hticks, step_timerTick hin, rfl, rfl, hst,
      congrArg (some <| Output.beep ·) (decide_pos_of_toNat_eq_sub hst), rfl⟩

/-! ## Coinciding events (60_exceptions.md R270) -/

/-- A run of m + n steps is a run of n from where m steps lead. -/
theorem runSteps_add {s t : State} {m : Nat} (n : Nat) (h : runSteps m s = .next t) :
    runSteps (m + n) s = runSteps n t := by
  induction m generalizing s with
  | zero =>
    cases h
    rw [Nat.zero_add]
  | succ m ih =>
    rw [Nat.succ_add, runSteps]
    rw [runSteps] at h
    cases hs : step s with
    | next u =>
      rw [hs] at h
      exact ih h
    | fault f => rw [hs] at h; cases h
    | refused f => rw [hs] at h; cases h

/-- A SetKeys, if one is pending, writes KEYS alone. -/
theorem runSteps_setKeys {s : State} (keys : Option (BitVec 16)) {es : List Event}
    (h : s.env.inputs = (keys.map Event.setKeys).toList ++ es) :
    ∃ env, runSteps (if keys.isSome then 1 else 0) s =
        .next { s with keys := keys.getD s.keys, env := env } ∧
      env.inputs = es ∧ env.font = s.env.font := by
  cases keys with
  | none => exact ⟨s.env, rfl, h, rfl⟩
  | some k => exact ⟨_, runSteps_succ 0 (step_setKeys h), rfl, rfl⟩

/-- A RedrawAck, if one is pending, clears REDRAW alone. -/
theorem runSteps_redrawAck {s : State} (ack : Bool) {es : List Event}
    (h : s.env.inputs = (if ack then [Event.redrawAck] else []) ++ es) :
    ∃ env, runSteps (if ack then 1 else 0) s =
        .next { s with redraw := s.redraw && !ack, env := env } ∧
      env.inputs = es ∧ env.font = s.env.font := by
  cases ack with
  | false =>
    rw [Bool.not_false, Bool.and_true]
    exact ⟨s.env, rfl, h, rfl⟩
  | true =>
    rw [Bool.not_true, Bool.and_false]
    exact ⟨_, runSteps_succ 0 (step_redrawAck (es := es) h), rfl, rfl⟩

/-- The state with the latches as a SetKeys and a RedrawAck leave them, where they came. -/
def State.latched (s : State) (keys : Option (BitVec 16)) (ack : Bool) (env : Env) : State :=
  { s with keys := keys.getD s.keys, redraw := s.redraw && !ack, env := env }

/-- Of coinciding events the two latches are performed first, and leave the Cycle and the tick. -/
theorem runSteps_latches {s : State} {keys : Option (BitVec 16)} {ack : Bool} {r : Byte}
    (h : s.env.inputs = coincident keys ack (some r) true) :
    ∃ env, runSteps ((if keys.isSome then 1 else 0) + (if ack then 1 else 0)) s =
        .next (s.latched keys ack env) ∧
      env.inputs = [.cycle r, .timerTick] ∧ env.font = s.env.font := by
  rw [coincident, List.append_assoc, List.append_assoc] at h
  obtain ⟨env₁, hkeys, hin₁, hfont₁⟩ := runSteps_setKeys keys h
  obtain ⟨env₂, hack, hin₂, hfont₂⟩ :=
    runSteps_redrawAck (s := { s with keys := keys.getD s.keys, env := env₁ }) ack hin₁
  exact ⟨env₂, (runSteps_add _ hkeys).trans hack, hin₂, hfont₂.trans hfont₁⟩

/-- No instruction changes the pending events. -/
theorem exec_inputs {i : Instr} {s t : State} (h : exec i s = .next t) :
    t.env.inputs = s.env.inputs := by
  cases exec_effect h with
  | _ => rfl

/-- A Cycle, on a halted core too, changes no pending event. -/
theorem cycle_inputs {r : Option Byte} {s t : State} (h : cycle r s = .next t) :
    t.env.inputs = s.env.inputs := by
  cases hhalt : s.halted with
  | true =>
    cases (cycle_halted r hhalt).symm.trans h
    rfl
  | false =>
    rcases cycle_cases r hhalt with hc | ⟨-, ⟨op, hc⟩ | ⟨i, hc⟩⟩
    · cases hc.symm.trans h
      rfl
    · cases hc.symm.trans h
      rfl
    · exact exec_inputs (s := s.accept r) (hc.symm.trans h)

section keyReaders
variable {s t : State} {x : Reg}

/-- Where a skip leaves PC, as one sum (40_control_flow.md R159). -/
theorem State.skipIf_pc_add (s : State) (c : Bool) :
    (s.skipIf c).pc = if c then s.pc + 4 else s.pc + 2 := by
  rw [State.skipIf_pc, BitVec.add_assoc]
  rfl

theorem exec_skp_pc (h : exec (.skp x) s = .next t) :
    t.pc = if s.keys.getLsbD ((s.readV x).toNat % 16) then s.pc + 4 else s.pc + 2 := by
  cases (exec_skp s x).symm.trans h
  rw [State.skipIf_pc_add, Bool.decide_eq_true]

theorem exec_sknp_pc (h : exec (.sknp x) s = .next t) :
    t.pc = if s.keys.getLsbD ((s.readV x).toNat % 16) then s.pc + 2 else s.pc + 4 := by
  cases (exec_sknp s x).symm.trans h
  rw [State.skipIf_pc_add]
  cases s.keys.getLsbD ((s.readV x).toNat % 16) with
  | false => rfl
  | true => rfl

/-- The wait of Fx0A stays on the instruction exactly while no key is pressed. -/
theorem exec_ldVxK_pc (h : exec (.ldVxK x) s = .next t) :
    t.pc = if s.keys = 0 then s.pc else s.pc + 2 := by
  have hnone := s.lowestKey_spec.1
  rcases exec_ldVxK_cases s x with ⟨hk, he⟩ | ⟨k, hk, he⟩
  · cases he.symm.trans h
    rw [if_pos (hnone.1 hk)]
  · cases he.symm.trans h
    rw [if_neg fun h0 => Option.some_ne_none k (hk.symm.trans (hnone.2 h0))]
    rfl

end keyReaders

/-- Settles O32: the latches run first, the Cycle leaves the tick pending, and the tick reads the
timers that the Cycle left. -/
theorem coincidingTickFollowsTheCycle : Obligations.CoincidingTickFollowsTheCycle := by
  intro s keys ack r h
  obtain ⟨env, hlatch, hin, hfont⟩ := runSteps_latches h
  refine ⟨_, hlatch, hin, rfl, rfl, rfl, hfont, State.memRead_congr rfl hfont, fun t u ht hu => ?_⟩
  have htick : t.env.inputs = [.timerTick] := cycle_inputs ((step_cycle hin).symm.trans ht)
  cases (step_timerTick htick).symm.trans hu
  refine ⟨⟨countDown_toNat t.dt, countDown_toNat t.st, rfl, rfl, rfl, fun _ => rfl⟩,
    fun x hrun => ?_⟩
  have hfetch := State.fetch16_congr (s := s) (t := s.latched keys ack env) rfl hfont s.pc.toNat
  have hexec {i : Instr} (hwf : i.wf = true) (hop : s.fetch16 s.pc.toNat = some (encode i)) :=
    (step_cycle_encode (s := s.latched keys ack env) hwf hrun
      (hfetch.trans hop) hin).symm.trans ht
  refine ⟨fun hop => ?_, fun hop => ?_, fun hop => ?_, fun hop => exec_skp_pc (hexec rfl hop),
    fun hop => exec_sknp_pc (hexec rfl hop), fun hop => exec_ldVxK_pc (hexec rfl hop),
    fun hop => ?_⟩
  · cases hexec rfl hop
    exact ⟨State.readV_writeV_same _ x _, countDown_toNat s.dt⟩
  · cases hexec rfl hop
    exact countDown_toNat (s.readV x)
  · cases hexec rfl hop
    exact ⟨countDown_toNat (s.readV x), rfl⟩
  · cases hexec rfl hop
    rfl

end Sys2Proof.Machine
end

section
/-! PROOFS. Reset and hazards: the statements of 70_reset_and_hazards.md. What Boot leaves in memory is
read one range of addresses at a time; a finished program is a jump that leaves the state it meets. -/

namespace Sys2Proof.Machine

/-! ## What Boot leaves (R310 to R312) -/

section boot
variable (s : State) (rom : List Byte)

theorem State.readV_boot (x : Reg) : (s.boot rom).readV x = 0 :=
  Vector.getElem_replicate x.isLt

theorem State.pixel_boot (r : Fin 32) (c : Fin 64) : (s.boot rom).pixel r c = false := by
  have hrow : (s.boot rom).fb[r] = 0 := Vector.getElem_replicate r.isLt
  rw [State.pixel, hrow, BitVec.ofNat_eq_ofNat, BitVec.getLsbD_zero]

/-- Between the font and the ROM there are zeros. -/
theorem State.memRead_boot_gap {a : Nat} (hlo : 80 ≤ a) (hhi : a < 0x200) :
    (s.boot rom).memRead a = some 0 := by
  rw [s.memRead_boot rom a (by omega), if_neg (by omega), background,
    Vector.getElem?_eq_none hlo, Option.getD_none]

/-- From 0x200 on there is the ROM, and zeros where it has ended. -/
theorem State.memRead_boot_rom {k : Nat} (hk : k < 3584) :
    (s.boot rom).memRead (0x200 + k) = some (rom[k]?.getD 0) := by
  rw [s.memRead_boot rom _ (by omega), List.length_take]
  by_cases hlen : k < rom.length
  · rw [if_pos (by omega), Nat.add_sub_cancel_left, List.getElem?_take_of_lt hk]
  · rw [if_neg (by omega), background, Vector.getElem?_eq_none (by omega),
      List.getElem?_eq_none (by omega)]

end boot

/-- Boot of the empty ROM differs from reset in the host's side alone. -/
theorem State.boot_nil (s : State) :
    s.boot [] = { State.reset with env := { s.env with rand := none, out := none } } := rfl

/-- Settles O27: the registers are those of `State.reset`, and the memory is read range by range. -/
theorem bootResetsAndLoadsTheRom : Obligations.BootResetsAndLoadsTheRom := by
  intro s rom es h
  have hstack (k : Fin 16) : ((s.withInputs es).boot rom).stack[k] = 0 :=
    Vector.getElem_replicate k.isLt
  have hfont (a : Fin 80) : ((s.withInputs es).boot rom).memRead a.val = some s.env.font[a] := by
    rw [State.memRead_boot_font _ rom a.isLt, State.withInputs_env,
      Vector.getElem?_eq_getElem a.isLt, Option.getD_some, Fin.getElem_fin]
  exact ⟨_, step_boot h, State.readV_boot _ rom, rfl, rfl, rfl, hstack, State.pixel_boot _ rom,
    rfl, rfl, rfl, rfl, rfl, rfl, rfl, hfont, fun _ => State.memRead_boot_gap _ rom,
    fun _ => State.memRead_boot_rom _ rom, fun a => (State.memRead_eq_none _ a).2⟩

/-- Settles O28. -/
theorem bootOfEmptyRomIsReset : Obligations.BootOfEmptyRomIsReset := by
  intro s h
  have hin : s.env.inputs = [.boot []] := congrArg Env.inputs h
  rw [step_boot hin, State.boot_nil, State.withInputs_env, h]
  rfl

/-! ## A finished program (R317) -/

/-- A jump to the address it stands at leaves the state as it is. -/
theorem exec_jp_self {s : State} {nnn : Addr12} (h : zextAddr nnn = s.pc) :
    exec (.jp nnn) s = .next s := by
  have hset : { s with pc := zextAddr nnn } = s := by rw [h]
  exact congrArg Host.Outcome.next hset

/-- Settles O39: the Cycle only takes the random byte, as the jump leaves the state it meets. -/
theorem finishedProgramStaysPut : Obligations.FinishedProgramStaysPut := by
  rintro s ⟨hrun, nnn, hpc, hop⟩ hnext
  obtain ⟨r, es, hstep⟩ := step_of_cycleNext hnext
  have hcycle : cycle r (s.withInputs es) = .next ((s.withInputs es).accept r) :=
    (cycle_of_fetch (s := s.withInputs es) r hrun hop).trans
      ((runWord_encode rfl _).trans (exec_jp_self hpc))
  exact ⟨_, hstep.trans hcycle, ⟨rfl, rfl, fun _ => rfl⟩, hrun, nnn, hpc, hop⟩

end Sys2Proof.Machine
end
